-- ==== Sys2Proof/Word.lean ====
section
/-!
DEFINITION. Words of CORE: the 8-bit byte (R20, R31), the 9-bit program counter (R23) and the
register index (R20).
-/

namespace Sys2Proof

/-- A register slot, a memory cell or an instruction byte: 8 bits, unsigned (R11, `XLEN`, `CELLW`). -/
abbrev Byte := BitVec 8

/-- The program counter's word: 9 bits, so that one-past-the-end is a value (R23, `PCW`). -/
abbrev PcWord := BitVec 9

/-- The index of a general register, 0 to 7 (R20, `NREG`). -/
abbrev RegIdx := Fin 8

end Sys2Proof
end

