-- ==== Sys2Proof/Config.lean ====
section
/-!
DEFINITION. The parameters of CORE with the defaults of rule R7.  The widths `XLEN`, `CELLW`, `PCW`,
`FLW` and the count `NREG` are the types of `Word.lean` and `Machine/State.lean`; the opcode bytes
`OPC_*` are the table `Opcode.byte` of `Decode.lean`, and `FL_RESET` is `Flags.reset` of `Machine/State.lean`.

CORE has no undefined value, so no constant here is opaque: rule R34 gives every reset value
(log entry 1 says which of them the source document itself does not give).
-/

namespace Sys2Proof.Config

/-- `MEMSIZE`: the number of memory cells, addressed 0 to 255 (R7, R31). -/
abbrev memSize : Nat := 256

/-- `SP_INDEX`: the register used as the stack pointer (R7, R22). -/
abbrev spIndex : RegIdx := 7

/-- `SP_INIT`: the reset value of `x[7]` (R7, R22, R34; log entry 16). -/
abbrev spInit : Byte := 0xF4

/-- `PC_RESET`: the reset value of the PC (R7, R34). -/
abbrev pcReset : PcWord := 0

/-- `REG_RESET`: the reset value of `x[0]` to `x[6]` (R7, R34; DESIGN CHOICE of the
spec, D3, unsafe: log entry 1). -/
abbrev regReset : Byte := 0x00

/-- The reset value of IR (R25, R34; DESIGN CHOICE of the spec, D5, safe: log entry 1). -/
abbrev irReset : Byte := 0x00

/-- `MEM_FILL`: what a cell the loader did not write reads as (R7, R141; DESIGN CHOICE of the spec, D6,
unsafe: log entry 2). -/
abbrev memFill : Byte := 0x00

end Sys2Proof.Config
end

