-- ==== Sys2Proof/Machine/State.lean ====
section
/-!
DEFINITION. CORE's architectural state, all of it (R20 to R34), as plain data, and its reset value.
-/

namespace Sys2Proof.Machine

/-- The three faults of rule R120, in the order of their codes 1, 2, 3.  In this
model a fault of the spec is no outcome of a step: rules R29, R30 and R124 give the state it leaves (status
Faulted, the record written), so a step that raises one ANSWERS that state.  The type names the `kind` of
the record; `Host.Outcome.fault` is never answered (DESIGN CHOICE, safe: log entry 4). -/
inductive Fault where
  /-- A memory access at an address of 256 or more (R121).  Raised by the fetch, the operand reads and the
  access primitives.  Safe: it is the spec's own fault, recorded as the spec says. -/
  | memoryFault
  /-- The fetched byte is none of the 13 opcodes (R123).  Raised by the dispatch.  Safe: as above; which
  bytes are illegal rests on the opcode table (log entry 3). -/
  | unimplementedOpcode
  /-- A register operand byte of 8 or more (R122).  Raised by the register-index check.  Safe: as above. -/
  | registerIndexFault
  deriving DecidableEq, Repr

/-- Why the model gives an instruction no meaning. -/
inductive Refusal where
  /-- The instruction has no meaning yet.  Raised by an arm of the dispatch; none is left.  Safe. -/
  | notModelled (mnemonic : String)
  deriving DecidableEq, Repr

/-- The fault record `(kind, pc, info)` (R30).  `info` is the failing address, the opcode byte or the
register index byte, according to `kind`. -/
structure FaultRecord where
  kind : Fault
  pc : PcWord
  info : BitVec 9
  deriving DecidableEq, Repr

/-- The run status (R29).  The fault record exists exactly while the status is Faulted (R30), so that
constructor carries it. -/
inductive RunStatus where
  | running
  | halted
  | faulted (record : FaultRecord)
  deriving DecidableEq, Repr

/-- The flags register FL (R27): three named bits.  No instruction can observe their positions; the view
`Flags.bits` gives the layout. -/
structure Flags where
  l : Bool
  g : Bool
  e : Bool
  deriving DecidableEq, Repr

/-- The memory array (R31): its cells by address, in the canonical form `Memory.wf`.  An address below 256
that is not listed reads as `Config.memFill`. -/
abbrev Memory := List Host.Cell

/-- The state of CORE: rule R33 says there is no other. -/
structure State where
  /-- `x[0]` to `x[7]` (R20); `x[7]` is SP (R22). -/
  regs : Vector Byte 8
  /-- The program counter (R23). -/
  pc : PcWord
  /-- The instruction register: the most recently fetched opcode byte (R25). -/
  ir : Byte
  /-- The flags register FL (R27). -/
  flags : Flags
  /-- The run status with its fault record (R29, R30). -/
  status : RunStatus
  /-- The memory array (R31). -/
  mem : Memory
  /-- The values PRN has emitted since reset, oldest first (R32). -/
  output : List Byte
  deriving DecidableEq, Repr

/-- `FL_RESET` (R28, R34; DESIGN CHOICE of the spec, D4, unsafe: log entry 1). -/
def Flags.reset : Flags := ⟨false, false, false⟩

/-- The state at reset (R34, R140), with no image loaded (R141). -/
def State.reset : State where
  regs := (Vector.replicate 8 Config.regReset).set 7 Config.spInit
  pc := Config.pcReset
  ir := Config.irReset
  flags := Flags.reset
  status := .running
  mem := []
  output := []

/-- The outcome of a meaning: what `exec` and `step` answer. -/
abbrev Result := Host.Outcome State Fault Refusal

end Sys2Proof.Machine
end

