-- ==== Sys2Proof/Machine/Flags.lean ====
section
/-!
DEFINITION. The ALU (R90): its two results, each computed exactly and then reduced modulo 256, and the flags of
its one comparison (R93).  Neither ADD nor MUL computes a flag (R94).
-/

namespace Sys2Proof.Machine

/-- `(a + b) mod 256` (R90, R92). -/
def aluAdd (a b : Byte) : Byte := BitVec.ofNat 8 (a.toNat + b.toNat)

/-- `(a * b) mod 256` (R90, R91). -/
def aluMul (a b : Byte) : Byte := BitVec.ofNat 8 (a.toNat * b.toNat)

/-- The unsigned comparison: exactly one of L, G and E (R93; DEDUCED by the spec from R20,
unsafe: log entry 20). -/
def compareFlags (a b : Byte) : Flags :=
  if a.toNat < b.toNat then ⟨true, false, false⟩
  else if a.toNat > b.toNat then ⟨false, true, false⟩
  else ⟨false, false, true⟩

/-- FL as a 3-bit register: L is bit 2, G is bit 1, E is bit 0 (R27).  PRESUMED (decision D2), safe: no
instruction observes this view (log entry 12). -/
def Flags.bits (f : Flags) : BitVec 3 :=
  BitVec.ofBool f.l ++ BitVec.ofBool f.g ++ BitVec.ofBool f.e

end Sys2Proof.Machine
end

