-- ==== Sys2Proof/Syntax.lean ====
section
/-!
DEFINITION. The 13 instructions of CORE (R1, R62): one constructor per row of the opcode table, in
the table's order.  Operand bytes stay whole bytes: rule R64 lets an operand byte name a register only
when it is below 8 and gives the others a fault of their own, which is part of the instruction's meaning.
-/

namespace Sys2Proof

/-- An instruction with its operand bytes.  `opA` is the byte at `pc+1`, `opB` or `imm` the byte at
`pc+2` (R60). -/
inductive Instr where
  /-- Halt: format F0 (R80). -/
  | hlt
  /-- Load immediate: format F2i, a register operand and an 8-bit immediate (R81). -/
  | ldi (opA imm : Byte)
  /-- Print register: format F1 (R82). -/
  | prn (opA : Byte)
  /-- Multiply: format F2r (R91). -/
  | mul (opA opB : Byte)
  /-- Add: format F2r (R92). -/
  | add (opA opB : Byte)
  /-- Push register: format F1 (R100). -/
  | push (opA : Byte)
  /-- Pop into register: format F1 (R101). -/
  | pop (opA : Byte)
  /-- Call subroutine through register: format F1 (R111). -/
  | call (opA : Byte)
  /-- Return from subroutine: format F0 (R112). -/
  | ret
  /-- Compare: format F2r (R93). -/
  | cmp (opA opB : Byte)
  /-- Jump through register: format F1 (R113). -/
  | jmp (opA : Byte)
  /-- Jump if equal: format F1 (R114). -/
  | jeq (opA : Byte)
  /-- Jump if not equal: format F1 (R115). -/
  | jne (opA : Byte)
  deriving DecidableEq, Repr

/-- The operation an instruction byte identifies (R14 "Opcode"), without its operands. -/
inductive Opcode where
  | hlt | ldi | prn | mul | add | push | pop | call | ret | cmp | jmp | jeq | jne
  deriving DecidableEq, Repr

/-- The operation of an instruction. -/
def Instr.opcode : Instr → Opcode
  | .hlt => .hlt
  | .ldi _ _ => .ldi
  | .prn _ => .prn
  | .mul _ _ => .mul
  | .add _ _ => .add
  | .push _ => .push
  | .pop _ => .pop
  | .call _ => .call
  | .ret => .ret
  | .cmp _ _ => .cmp
  | .jmp _ => .jmp
  | .jeq _ => .jeq
  | .jne _ => .jne

/-- The operand bytes of an instruction, in ascending address order (R60). -/
def Instr.operands : Instr → List Byte
  | .hlt => []
  | .ldi a v => [a, v]
  | .prn a => [a]
  | .mul a b => [a, b]
  | .add a b => [a, b]
  | .push a => [a]
  | .pop a => [a]
  | .call a => [a]
  | .ret => []
  | .cmp a b => [a, b]
  | .jmp a => [a]
  | .jeq a => [a]
  | .jne a => [a]

/-- The register operands of an instruction, `op_a` before `op_b`: every operand byte but LDI's
`op_b` (R64). -/
def Instr.registerOperands : Instr → List Byte
  | .hlt => []
  | .ldi a _ => [a]
  | .prn a => [a]
  | .mul a b => [a, b]
  | .add a b => [a, b]
  | .push a => [a]
  | .pop a => [a]
  | .call a => [a]
  | .ret => []
  | .cmp a b => [a, b]
  | .jmp a => [a]
  | .jeq a => [a]
  | .jne a => [a]

end Sys2Proof
end

