-- ==== Sys2Proof/Decode.lean ====
section
/-!
DEFINITION. The opcode table, CORE's decoder and dispatcher lookup (R60 to R71), the reading of an
instruction from bytes, and the encoder.
-/

namespace Sys2Proof

/-- `OPC_*`: the opcode byte of each operation, rule R62's table.  Bits 7:6 and 4 follow from the
source document (R63); bits 5 and 3:0 are PRESUMED, from general knowledge (decision D1;
unsafe: log entry 3). -/
def Opcode.byte : Opcode → Byte
  | .hlt => 0x01
  | .ldi => 0x82
  | .prn => 0x47
  | .mul => 0xA2
  | .add => 0xA0
  | .push => 0x45
  | .pop => 0x46
  | .call => 0x50
  | .ret => 0x11
  | .cmp => 0xA7
  | .jmp => 0x54
  | .jeq => 0x55
  | .jne => 0x56

/-- The 13 entries of the dispatch table, in the source's row order (R62, R71). -/
def Opcode.all : List Opcode :=
  [.hlt, .ldi, .prn, .mul, .add, .push, .pop, .call, .ret, .cmp, .jmp, .jeq, .jne]

/-- The dispatcher's lookup: exact equality with one of the 13 opcode bytes, no don't-care bits
(R68, R71).  `none` is an illegal byte (R67). -/
def opcodeOf (ir : Byte) : Option Opcode := Opcode.all.find? (fun op => op.byte == ir)

/-- The decoder's first output, `size(IR) = IR[7:6] + 1` (R65). -/
def size (ir : Byte) : Nat := (ir.extractLsb' 6 2).toNat + 1

/-- The decoder's second output, `setsPC(IR) = IR[4]` (R65). -/
def setsPC (ir : Byte) : Bool := ir.getLsbD 4

/-- Why no instruction can be read. -/
inductive DecodeError where
  /-- The byte at this offset from the instruction's start does not exist. -/
  | missingByte (offset : Nat)
  /-- The first byte is none of the 13 opcodes (R67). -/
  | unimplementedOpcode (ir : Byte)
  deriving DecidableEq, Repr

/-- The instruction an operation and its operand bytes make.  An operand the operation does not have
is ignored. -/
def Opcode.assemble : Opcode → Byte → Byte → Instr
  | .hlt, _, _ => .hlt
  | .ldi, a, b => .ldi a b
  | .prn, a, _ => .prn a
  | .mul, a, b => .mul a b
  | .add, a, b => .add a b
  | .push, a, _ => .push a
  | .pop, a, _ => .pop a
  | .call, a, _ => .call a
  | .ret, _, _ => .ret
  | .cmp, a, b => .cmp a b
  | .jmp, a, _ => .jmp a
  | .jeq, a, _ => .jeq a
  | .jne, a, _ => .jne a

/-- Read the operand byte at `offset`, but only of an instruction that has one there (R70 step (3a));
the byte 0 stands for an operand that is not there and that `Opcode.assemble` ignores. -/
def readOperand (byteAt : Nat → Option Byte) (instrSize offset : Nat) : Except DecodeError Byte :=
  if offset < instrSize then
    match byteAt offset with
    | some b => .ok b
    | none => .error (.missingByte offset)
  else .ok 0

/-- Steps (1) to (3a) of the execution cycle on any source of bytes: fetch, look up, then read the
operands in ascending address order (R70).  `byteAt k` is the byte `k` places after the opcode. -/
def decodeAt (byteAt : Nat → Option Byte) : Except DecodeError Instr :=
  match byteAt 0 with
  | none => .error (.missingByte 0)
  | some ir =>
    match opcodeOf ir with
    | none => .error (.unimplementedOpcode ir)
    | some op =>
      match readOperand byteAt (size ir) 1 with
      | .error e => .error e
      | .ok a =>
        match readOperand byteAt (size ir) 2 with
        | .error e => .error e
        | .ok b => .ok (op.assemble a b)

/-- The bytes of an instruction, in ascending address order (R44, R60). -/
def encode (i : Instr) : List Byte := i.opcode.byte :: i.operands

/-- Decode the instruction at the head of a list of bytes and return it with the bytes after it. -/
def decode (bytes : List Byte) : Except DecodeError (Instr × List Byte) :=
  match decodeAt (fun k => bytes[k]?) with
  | .ok i => .ok (i, bytes.drop (size i.opcode.byte))
  | .error e => .error e

/-- The first `n` bytes of a table word: byte 0 is its least significant byte. -/
def wordBytes : Nat → Nat → List Byte
  | 0, _ => []
  | n + 1, w => BitVec.ofNat 8 w :: wordBytes n (w / 256)

/-- The bytes a table word of `nbits` bits stands for: its bits above `nbits` are 0 and it is as long as the
longest instruction, 3 bytes (R60). -/
def tableBytes (nbits w : Nat) : List Byte := wordBytes 3 (w % 2 ^ nbits)

/-- The instruction the decoder reads from a table word. -/
def decodeTableWord (nbits w : Nat) : Option Instr :=
  match decode (tableBytes nbits w) with
  | .ok (i, _) => some i
  | .error _ => none

end Sys2Proof
end

