-- ==== Sys2Proof/Machine/Ops.lean ====
section
/-!
DEFINITION. The named operations over memory, registers and the other state: the pseudocode primitives of
rule R12, raising a fault (R124) and the default advance of the PC (R70 step (4)).
-/

namespace Sys2Proof.Machine

/-! ### The memory array -/

/-- What one cell reads as: the listed byte, or the fill value (R31, R141). -/
def Memory.peek : Memory → Nat → Byte
  | [], _ => Config.memFill
  | (a, v) :: rest, addr => if a = addr then v else Memory.peek rest addr

/-- The entry that says a cell holds `v`: none when an unlisted cell reads as `v` already. -/
def Memory.entry (addr : Nat) (v : Byte) : Memory :=
  if v = Config.memFill then [] else [(addr, v)]

/-- Store one byte, keeping the addresses strictly rising and no fill value listed. -/
def Memory.poke (addr : Nat) (v : Byte) : Memory → Memory
  | [] => Memory.entry addr v
  | (a, w) :: rest =>
    if addr < a then Memory.entry addr v ++ (a, w) :: rest
    else if addr = a then Memory.entry addr v ++ rest
    else (a, w) :: Memory.poke addr v rest

/-- Store bytes at consecutive addresses, as the loader writes an image (R142). -/
def Memory.pokeList (addr : Nat) : List Byte → Memory → Memory
  | [], m => m
  | v :: vs, m => Memory.pokeList (addr + 1) vs (Memory.poke addr v m)

/-- The canonical form: addresses strictly rising, all of them existing cells, and no entry equal to what
an unlisted cell reads as. -/
abbrev Memory.wf (m : Memory) : Prop :=
  m.Pairwise (fun c d => c.1 < d.1) ∧ ∀ c ∈ m, c.1 < Config.memSize ∧ c.2 ≠ Config.memFill

/-- `MemRead(addr, 1)`: the cell, or nothing when the address is 256 or more (R41). -/
def State.memRead (s : State) (addr : Nat) : Option Byte :=
  if addr < Config.memSize then some (s.mem.peek addr) else none

/-- `MemWrite(addr, 1, v)`: store `v mod 256`, or nothing when the address is 256 or more (R42). -/
def State.memWrite (s : State) (addr v : Nat) : Option State :=
  if addr < Config.memSize then some { s with mem := s.mem.poke addr (BitVec.ofNat 8 v) } else none

/-! ### Registers and the other state -/

/-- `x[i]` (R12). -/
def State.reg (s : State) (i : RegIdx) : Byte := s.regs[i]

/-- `x[i] <- v` (R12). -/
def State.setReg (s : State) (i : RegIdx) (v : Byte) : State :=
  { s with regs := s.regs.set i.val v i.isLt }

/-- `SP`, a name for `x[7]` (R12, R22). -/
def State.sp (s : State) : Byte := s.reg Config.spIndex

/-- `SP <- v`. -/
def State.setSp (s : State) (v : Byte) : State := s.setReg Config.spIndex v

/-- `pc <- target` (R12). -/
def State.setPc (s : State) (target : PcWord) : State := { s with pc := target }

/-- `IR <- b`, the fetch's write (R25). -/
def State.setIr (s : State) (b : Byte) : State := { s with ir := b }

/-- `FL <- {L, G, E}` (R12). -/
def State.setFlags (s : State) (f : Flags) : State := { s with flags := f }

/-- `emit(v)`: one output event (R12, R32). -/
def State.emit (s : State) (v : Byte) : State := { s with output := s.output ++ [v] }

/-- `halt()`: the run status becomes Halted (R12). -/
def State.halt (s : State) : State := { s with status := .halted }

/-- A byte as a PC: every jump target is zero-extended to the PC's width (R110, R112). -/
def targetPc (v : Byte) : PcWord := v.setWidth 9

/-- Raise a fault: the status becomes Faulted and the record `(kind, pc, info)` is written; nothing else
changes (R124). -/
def State.raise (s : State) (kind : Fault) (info : BitVec 9) : State :=
  { s with status := .faulted ⟨kind, s.pc, info⟩ }

/-! ### The end of an instruction -/

/-- Step (4) of the cycle: add `size(IR)` to the PC unless the instruction sets the PC itself (R24, R70).
The opcode byte is the instruction's own; the 9-bit sum wraps only from a PC no fetch allows
(DESIGN CHOICE, safe: log entry 11). -/
def State.defaultAdvance (s : State) (op : Opcode) : State :=
  if setsPC op.byte then s else s.setPc (s.pc + BitVec.ofNat 9 (size op.byte))

/-- The end of every meaning: the handler has run, the default advance follows. -/
def retire (op : Opcode) (s : State) : Result := .next (s.defaultAdvance op)

end Sys2Proof.Machine
end

