-- ==== Sys2Proof/Machine/Operands.lean ====
section
/-!
DEFINITION. The operand forms of rule R64 and the checked memory operands: an operation either gives its value
to the rest of the meaning or raises the fault the spec names.  An immediate operand (LDI's `op_b`) is the
byte itself and needs no operation.
-/

namespace Sys2Proof.Machine

/-- The register an operand byte names, if it is below 8 (R64). -/
def regIndex (op : Byte) : Option RegIdx :=
  if h : op.toNat < 8 then some ⟨op.toNat, h⟩ else none

/-- `reg(op)`: go on with the register, or raise `RegisterIndexFault(pc, op)` (R12, R64, R122; the spec's
decision D9, log entry 9). -/
def withReg (op : Byte) (s : State) (k : RegIdx → Result) : Result :=
  match regIndex op with
  | some r => k r
  | none => .next (s.raise .registerIndexFault (op.setWidth 9))

/-- Two register operands, `op_a` checked before `op_b` (R70 step (3b), R126; the spec's decision D8,
log entry 10). -/
def withRegs (opA opB : Byte) (s : State) (k : RegIdx → RegIdx → Result) : Result :=
  withReg opA s fun a => withReg opB s fun b => k a b

/-- Use the byte at `addr`, or raise `MemoryFault(pc, addr)` (R41).  `info` has 9 bits; an address of 512 or
more, which no instruction forms, would lose its high bits (DESIGN CHOICE, safe: log entry 18). -/
def withLoad (addr : Nat) (s : State) (k : Byte → Result) : Result :=
  match s.memRead addr with
  | some v => k v
  | none => .next (s.raise .memoryFault (BitVec.ofNat 9 addr))

/-- Store `v mod 256` at `addr` and go on, or raise `MemoryFault(pc, addr)` (R42). -/
def withStore (addr v : Nat) (s : State) (k : State → Result) : Result :=
  match s.memWrite addr v with
  | some t => k t
  | none => .next (s.raise .memoryFault (BitVec.ofNat 9 addr))

end Sys2Proof.Machine
end

