-- ==== Sys2Proof/Machine/Alu.lean ====
section
/-!
DEFINITION. The meanings of MUL, ADD and CMP (41_alu.md).
-/

namespace Sys2Proof.Machine

/-- MUL (R91): the low 8 bits of the product; FL keeps its value. -/
def execMul (opA opB : Byte) (s : State) : Result :=
  withRegs opA opB s fun a b => retire .mul (s.setReg a (aluMul (s.reg a) (s.reg b)))

/-- ADD (R92): the sum modulo 256; FL keeps its value. -/
def execAdd (opA opB : Byte) (s : State) : Result :=
  withRegs opA opB s fun a b => retire .add (s.setReg a (aluAdd (s.reg a) (s.reg b)))

/-- CMP (R93): all three flags from the unsigned comparison; no register is written. -/
def execCmp (opA opB : Byte) (s : State) : Result :=
  withRegs opA opB s fun a b => retire .cmp (s.setFlags (compareFlags (s.reg a) (s.reg b)))

end Sys2Proof.Machine
end

