-- ==== Sys2Proof/Machine/Basic.lean ====
section
/-!
DEFINITION. The meanings of HLT, LDI and PRN (40_halt_load_output.md).
-/

namespace Sys2Proof.Machine

/-- HLT (R80): the status becomes Halted; the default advance still happens (the spec's decision
D13, log entry 14). -/
def execHlt (s : State) : Result := retire .hlt s.halt

/-- LDI (R81): `x[reg(op_a)] <- op_b`, the immediate unchanged. -/
def execLdi (opA imm : Byte) (s : State) : Result :=
  withReg opA s fun a => retire .ldi (s.setReg a imm)

/-- PRN (R82): `emit(x[reg(op_a)])`; the sink always accepts (the spec's decision D14, unsafe: log entry 13). -/
def execPrn (opA : Byte) (s : State) : Result :=
  withReg opA s fun a => retire .prn (s.emit (s.reg a))

end Sys2Proof.Machine
end

