-- ==== Sys2Proof/Machine/Control.lean ====
section
/-!
DEFINITION. The meanings of CALL, RET, JMP, JEQ and JNE (43_control_flow.md).  Each writes the PC itself; bit 4
of its opcode keeps the default advance away (R24).
-/

namespace Sys2Proof.Machine

/-- The not-taken path of JEQ and JNE: `pc <- pc + 2`, the size of either (R114, R115). -/
def State.skipBranch (s : State) (op : Opcode) : State :=
  s.setPc (s.pc + BitVec.ofNat 9 (size op.byte))

/-- CALL (R111): SP is decremented, the return address `pc + 2` is stored modulo 256, then the target
register is read (the modulus at `pc = 254`: DEDUCED by the spec from R42, unsafe: log entry 20). -/
def execCall (opA : Byte) (s : State) : Result :=
  withReg opA s fun a =>
    let lowered := s.setSp (s.sp - 1)
    withStore lowered.sp.toNat (s.pc.toNat + size Opcode.call.byte) lowered fun stored =>
      retire .call (stored.setPc (targetPc (stored.reg a)))

/-- RET (R112): the PC is the byte at SP, zero-extended; then SP is incremented. -/
def execRet (s : State) : Result :=
  withLoad s.sp.toNat s fun v =>
    retire .ret ((s.setPc (targetPc v)).setSp (s.sp + 1))

/-- JMP (R113): `pc <- x[reg(op_a)]`. -/
def execJmp (opA : Byte) (s : State) : Result :=
  withReg opA s fun a => retire .jmp (s.setPc (targetPc (s.reg a)))

/-- JEQ (R114): taken when E is 1. -/
def execJeq (opA : Byte) (s : State) : Result :=
  withReg opA s fun a =>
    retire .jeq (if s.flags.e then s.setPc (targetPc (s.reg a)) else s.skipBranch .jeq)

/-- JNE (R115): taken when E is 0. -/
def execJne (opA : Byte) (s : State) : Result :=
  withReg opA s fun a =>
    retire .jne (if s.flags.e then s.skipBranch .jne else s.setPc (targetPc (s.reg a)))

end Sys2Proof.Machine
end

