-- ==== Sys2Proof/Machine/Stack.lean ====
section
/-!
DEFINITION. The meanings of PUSH and POP (42_stack.md).  The order of the pseudocode's statements decides the
cases that name `x[7]` (R146).
-/

namespace Sys2Proof.Machine

/-- PUSH (R100): SP is decremented first, then the register is read and written to the cell at the new SP. -/
def execPush (opA : Byte) (s : State) : Result :=
  withReg opA s fun a =>
    let lowered := s.setSp (s.sp - 1)
    withStore lowered.sp.toNat (lowered.reg a).toNat lowered fun stored => retire .push stored

/-- POP (R101): the cell at SP goes to the register, then SP, as it now stands, is incremented
(`POP R7`: DEDUCED by the spec from R12, unsafe: log entry 20). -/
def execPop (opA : Byte) (s : State) : Result :=
  withReg opA s fun a =>
    withLoad s.sp.toNat s fun v =>
      let loaded := s.setReg a v
      retire .pop (loaded.setSp (loaded.sp + 1))

end Sys2Proof.Machine
end

