-- ==== Sys2Proof/Machine/Dispatch.lean ====
section
/-!
DEFINITION. The dispatcher (R71): one arm per instruction, in the opcode table's order.
-/

namespace Sys2Proof.Machine

/-- The effect of one instruction on a state whose PC is the address of its opcode byte and whose IR holds that
byte: steps (3b), (3c) and (4) of the execution cycle (R70).  `exec` does not look at the run status; `step` calls it only
while Running (DESIGN CHOICE, safe: log entry 19). -/
def exec (i : Instr) (s : State) : Host.Outcome State Fault Refusal :=
  match i with
  | .hlt => Sys2Proof.Machine.execHlt s
  | .ldi opA imm => Sys2Proof.Machine.execLdi opA imm s
  | .prn opA => Sys2Proof.Machine.execPrn opA s
  | .mul opA opB => Sys2Proof.Machine.execMul opA opB s
  | .add opA opB => Sys2Proof.Machine.execAdd opA opB s
  | .push opA => Sys2Proof.Machine.execPush opA s
  | .pop opA => Sys2Proof.Machine.execPop opA s
  | .call opA => Sys2Proof.Machine.execCall opA s
  | .ret => Sys2Proof.Machine.execRet s
  | .cmp opA opB => Sys2Proof.Machine.execCmp opA opB s
  | .jmp opA => Sys2Proof.Machine.execJmp opA s
  | .jeq opA => Sys2Proof.Machine.execJeq opA s
  | .jne opA => Sys2Proof.Machine.execJne opA s

end Sys2Proof.Machine
end

