-- ==== Sys2Proof/Machine/Cycle.lean ====
section
/-!
DEFINITION. The execution cycle (R70): fetch, look up, read the operands, run.  `Step.lean` calls it while the
status is Running.
-/

namespace Sys2Proof.Machine

/-- The byte `k` places after the opcode of the instruction at the PC; `none` past the end of memory. -/
def State.fetchByte (s : State) (k : Nat) : Option Byte := s.memRead (s.pc.toNat + k)

/-- Step (1): `IR <- MemRead(pc, 1)`.  A fetch past the end of memory leaves IR unchanged (R25). -/
def State.latchIr (s : State) : State :=
  match s.fetchByte 0 with
  | some b => s.setIr b
  | none => s

/-- The fault that ends a cycle in which no instruction could be read (R121, R123). -/
def State.raiseDecodeError (s : State) : DecodeError → State
  | .missingByte k => s.raise .memoryFault (BitVec.ofNat 9 (s.pc.toNat + k))
  | .unimplementedOpcode ir => s.raise .unimplementedOpcode (ir.setWidth 9)

/-- One cycle of a running machine: one whole instruction, or the first fault it meets (R70, R126). -/
def cycle (s : State) : Result :=
  match decodeAt s.fetchByte with
  | .ok i => exec i s.latchIr
  | .error e => .next (s.latchIr.raiseDecodeError e)

/-- A step by run status: a cycle while Running; Halted and Faulted are terminal, no instruction runs and
everything keeps its value until reset (R29, R136; DEDUCED, safe: log entry 5). -/
def stepByStatus (s : State) : Result :=
  match s.status with
  | .running => cycle s
  | .halted => .next s
  | .faulted _ => .next s

/-- Store those of the bytes that fall on existing cells, from `addr` upward. -/
def Memory.pokeExisting (addr : Nat) : List Byte → Memory → Memory
  | [], m => m
  | v :: vs, m =>
    Memory.pokeExisting (addr + 1) vs (if addr < Config.memSize then Memory.poke addr v m else m)

/-- Where a table word is placed: at the PC, or at 0 when the instruction does not fit before the end of
memory (DESIGN CHOICE, safe: log entry 6). -/
def State.placePc (s : State) (bytes : List Byte) : PcWord :=
  if s.pc.toNat + size (bytes.headD 0) ≤ Config.memSize then s.pc else 0

/-- The state with the bytes placed so that the next step fetches them, and running. -/
def State.placeBytes (s : State) (bytes : List Byte) : State :=
  { s with
    pc := s.placePc bytes
    status := .running
    mem := Memory.pokeExisting (s.placePc bytes).toNat bytes s.mem }

end Sys2Proof.Machine
end

