-- ==== Sys2Proof/Machine/Boundary.lean ====
section
/-!
DEFINITION. The block's boundary (R8 to R10): its output ports as views of the state, the reset and loader
inputs, and the launch state (R140 to R143).
-/

namespace Sys2Proof.Machine

/-! ### Output ports -/

/-- The code of a fault on the `fault_kind` port (R120; the numbers are the spec's decision D20). -/
def Fault.code : Fault → BitVec 2
  | .memoryFault => 1
  | .unimplementedOpcode => 2
  | .registerIndexFault => 3

/-- `halted`: 1 exactly when the status is Halted (R29). -/
def State.haltedPort (s : State) : Bool :=
  match s.status with
  | .halted => true
  | .running => false
  | .faulted _ => false

/-- The fault record, while the status is Faulted (R30). -/
def State.faultRecord (s : State) : Option FaultRecord :=
  match s.status with
  | .faulted r => some r
  | .running => none
  | .halted => none

/-- `faulted`: 1 exactly when the status is Faulted (R29). -/
def State.faultedPort (s : State) : Bool := s.faultRecord.isSome

/-- `fault_kind`: 0 when there is no fault (R30). -/
def State.faultKindPort (s : State) : BitVec 2 :=
  match s.faultRecord with
  | some r => r.kind.code
  | none => 0

/-- `fault_pc`: reads as 0 when there is no fault (R30). -/
def State.faultPcPort (s : State) : PcWord :=
  match s.faultRecord with
  | some r => r.pc
  | none => 0

/-- `fault_info`: reads as 0 when there is no fault (R30). -/
def State.faultInfoPort (s : State) : BitVec 9 :=
  match s.faultRecord with
  | some r => r.info
  | none => 0

/-- The output event of the step from `before` to `after`: `out_valid` is whether there is one and `out_data`
is its value (R9, R82).  The spec gives `out_data` no value without an event, and none is given here (log entry 15). -/
def outputEvent (before after : State) : Option Byte :=
  after.output[before.output.length]?

/-! ### Launch -/

/-- The launch state with a program image at address 0 (R141, R143).  An image of more than 256 bytes is refused
outside CORE and never loaded (R142, decision D22). -/
def launch (image : List Byte) : Option State :=
  if image.length ≤ Config.memSize then
    some { State.reset with mem := Memory.pokeList 0 image State.reset.mem }
  else none

/-! ### Reset and loader inputs -/

/-- The input signals of rule R9. -/
structure Inputs where
  rst : Bool
  loadWe : Bool
  loadAddr : Byte
  loadData : Byte
  deriving DecidableEq, Repr

/-- The block at its boundary: the core and the level `rst` had at the last tick, which tells the start of a
reset from its continuation (R141). -/
structure Block where
  rst : Bool
  core : State
  deriving DecidableEq, Repr

/-- The core while `rst` is asserted: reset values in every field (R140); memory is filled at the start of the
reset and then keeps what the loader wrote (R141). -/
def Block.heldInReset (b : Block) : State :=
  if b.rst then { State.reset with mem := b.core.mem } else State.reset

/-- The loader's write (R142). -/
def Inputs.load (inp : Inputs) (s : State) : State :=
  if inp.loadWe then { s with mem := s.mem.poke inp.loadAddr.toNat inp.loadData } else s

/-- One tick of the block: the reset state and at most one loader write while `rst` is asserted; one step of the
core, with `load_we` ignored, while it is released (R9, R140 to R143).  A tick is no clock cycle (R147; DESIGN CHOICE,
safe: log entry 15). -/
def Block.tick (inp : Inputs) (b : Block) : Host.Outcome Block Fault Refusal :=
  if inp.rst then .next ⟨true, inp.load b.heldInReset⟩
  else
    match step b.core with
    | .next s => .next ⟨false, s⟩
    | .fault f => .fault f
    | .refused r => .refused r

/-- Ticks with the given inputs, in order. -/
def Block.ticks : List Inputs → Block → Host.Outcome Block Fault Refusal
  | [], b => .next b
  | inp :: rest, b =>
    match b.tick inp with
    | .next b' => Block.ticks rest b'
    | .fault f => .fault f
    | .refused r => .refused r

/-- The loader's inputs for an image: one byte per tick from `addr` upward, `rst` held (R142). -/
def loaderInputs (addr : Nat) : List Byte → List Inputs
  | [] => []
  | v :: vs => ⟨true, true, BitVec.ofNat 8 addr, v⟩ :: loaderInputs (addr + 1) vs

/-- The input that starts a reset without a loader write. -/
def resetInput : Inputs := ⟨true, false, 0, 0⟩

end Sys2Proof.Machine
end

