-- ==== Sys2Proof/WellFormed.lean ====
section
/-!
DEFINITION. Well-formed instructions.  Rule R68: a register operand must be 0 to 7 in full.  An
instruction that is not well formed is still fetched and run: it raises RegisterIndexFault (R122).
-/

namespace Sys2Proof

/-- The check on one register operand: it names `x[0]` to `x[7]` (R64, R68). -/
def registerOperandOk (op : Byte) : Bool := decide (op.toNat < 8)

/-- Every register operand of the instruction names a register (R68). -/
def Instr.wellFormed (i : Instr) : Bool := i.registerOperands.all registerOperandOk

end Sys2Proof
end

