-- ==== Sys2Proof/Safety.lean ====
section
/-!
DEFINITION. The terms claims use: what a run's end is (R148), what an instruction may change, and the invariant
of CORE's state.
-/

namespace Sys2Proof.Machine

/-! ### The end of a run -/

/-- A run is finished when the status is Halted or Faulted (R148). -/
def State.finished (s : State) : Prop := s.status ≠ .running

/-- From `s` the run reaches `t`. -/
def Reaches (s t : State) : Prop := ∃ k, Sys2Proof.core.run k s = .next t

/-- "The program halts": the status reaches Halted, not Faulted (R148).  Running out of steps is not Halted. -/
def HaltsCleanly (s : State) : Prop := ∃ t, Reaches s t ∧ t.status = .halted

/-- The run ends in a fault (R72). -/
def EndsFaulted (s : State) : Prop := ∃ t r, Reaches s t ∧ t.status = .faulted r

/-! ### What an instruction may change -/

/-- The registers an instruction may write: its destination, and SP for the four stack users (R21, R49; RET
after R112, log entry 8). -/
def mayWrite : Instr → RegIdx → Prop
  | .ldi a _, r => a.toNat = r.val
  | .mul a _, r => a.toNat = r.val
  | .add a _, r => a.toNat = r.val
  | .pop a, r => a.toNat = r.val ∨ r = Config.spIndex
  | .push _, r => r = Config.spIndex
  | .call _, r => r = Config.spIndex
  | .ret, r => r = Config.spIndex
  | .hlt, _ => False
  | .prn _, _ => False
  | .cmp _ _, _ => False
  | .jmp _, _ => False
  | .jeq _, _ => False
  | .jne _, _ => False

/-- The address an instruction stores to: PUSH and CALL write the cell at the new SP, nothing else stores
(R43). -/
def storeAddress : Instr → State → Option Nat
  | .push _, s => some (s.sp - 1).toNat
  | .call _, s => some (s.sp - 1).toNat
  | .hlt, _ => none
  | .ldi _ _, _ => none
  | .prn _, _ => none
  | .mul _ _, _ => none
  | .add _ _, _ => none
  | .pop _, _ => none
  | .ret, _ => none
  | .cmp _ _, _ => none
  | .jmp _, _ => none
  | .jeq _, _ => none
  | .jne _, _ => none

/-! ### What a fault leaves -/

/-- The state a fault of the instruction at the PC leaves (R124): `ir` is what IR holds then, the record has the
PC and `info`, and nothing else has changed. -/
def State.afterFault (s : State) (ir : Byte) (kind : Fault) (info : BitVec 9) : State :=
  { s with ir := ir, status := .faulted ⟨kind, s.pc, info⟩ }

/-- The MemoryFault clause of an instruction rule: while running, the opcode byte `opc` at an address of `first`
or more leaves an operand byte at address 256, so the step raises `MemoryFault(pc, 256)`, whatever the operand
bytes that exist hold. -/
def OperandReadFaultsFrom (opc : Byte) (first : Nat) : Prop :=
  ∀ s : State, s.status = .running → s.memRead s.pc.toNat = some opc → first ≤ s.pc.toNat →
    step s = .next (s.afterFault opc .memoryFault 256)

/-! ### The invariant -/

/-- At most one of L, G and E is set: none before the first CMP, exactly one after it (R27, R28). -/
abbrev Flags.exclusive (f : Flags) : Prop :=
  ¬(f.l = true ∧ f.g = true) ∧ ¬(f.l = true ∧ f.e = true) ∧ ¬(f.g = true ∧ f.e = true)

/-- What a fault record can hold, with the IR the fault leaves (R120 to R124, R25): a failing address of 256 to
258, which is the PC itself at a fetch and 256 at an operand read; the illegal byte; or an index of 8 or more. -/
abbrev FaultRecord.legal (r : FaultRecord) (ir : Byte) : Prop :=
  (r.kind = .memoryFault →
    (256 ≤ r.pc.toNat ∧ r.pc.toNat ≤ 258 ∧ r.info = r.pc) ∨
      ((r.pc.toNat = 254 ∨ r.pc.toNat = 255) ∧ r.info.toNat = 256 ∧ (opcodeOf ir).isSome = true)) ∧
  (r.kind = .unimplementedOpcode → r.pc.toNat < 256 ∧ r.info.toNat = ir.toNat ∧ opcodeOf ir = none) ∧
  (r.kind = .registerIndexFault →
    r.pc.toNat < 255 ∧ 8 ≤ r.info.toNat ∧ r.info.toNat < 256 ∧ (opcodeOf ir).isSome = true)

/-- What a terminal status says about the rest of the state: Halted is left by HLT with its default advance (R80),
and a fault leaves the PC as the record gives it (R124). -/
abbrev State.statusOk (s : State) : Prop :=
  (s.status = .halted → s.ir = Opcode.hlt.byte ∧ 1 ≤ s.pc.toNat ∧ s.pc.toNat ≤ 256) ∧
    ∀ r ∈ s.faultRecord, r.pc = s.pc ∧ r.legal s.ir

/-- The invariant: canonical memory, a PC of 0 to 258 (R23), exclusive flags, and a status that agrees with the
rest. -/
abbrev State.Inv (s : State) : Prop :=
  s.mem.wf ∧ s.pc.toNat ≤ 258 ∧ s.flags.exclusive ∧ s.statusOk

end Sys2Proof.Machine
end

