-- ==== Sys2Proof/Certificates/Slice0/Obligations.lean ====
section
/-!
DEFINITION. What is claimed of CORE.  Opcode bytes written as numbers are rule R62's; the spec marks bits 5 and 3:0
of each as general knowledge (decision D1, log entry 3).
-/

open Sys2Proof Sys2Proof.Machine

/-! ### Reset, decoder and encoding -/

/-- The reset state of R34 and R140.  SP, the PC and Running are the source document's; the other values are the
spec's decisions D3 to D6 and D14 (log entries 1 and 2). -/
def Obligations.ResetStateHoldsTheStatedValues : Prop :=
  State.reset.reg 7 = 0xF4 ∧ (∀ r : RegIdx, r ≠ 7 → State.reset.reg r = 0) ∧
    State.reset.pc = 0 ∧ State.reset.ir = 0 ∧ State.reset.flags.bits = 0 ∧ State.reset.status = .running ∧
    (∀ a, a < 256 → State.reset.memRead a = some 0) ∧ State.reset.output = []

/-- R65, whole: the two outputs as arithmetic on the byte, the metadata of the 13 opcodes, and that size 4
belongs to no defined opcode. -/
def Obligations.DecoderReadsSizeAndSetsPcFromTheOpcode : Prop :=
  (∀ ir : Byte, size ir = ir.toNat / 64 + 1 ∧ (setsPC ir = true ↔ ir.toNat / 16 % 2 = 1)) ∧
    (∀ i : Instr, size i.opcode.byte = 1 + i.operands.length ∧
      (setsPC i.opcode.byte = true ↔ i.opcode ∈ [Opcode.call, .ret, .jmp, .jeq, .jne])) ∧
    (∀ (ir : Byte) (op : Opcode), opcodeOf ir = some op → size ir ≤ 3)

/-- Words written out from R62's table decode to the instructions they stand for.  The byte values are PRESUMED (D1,
log entry 3); that a word's least significant byte is the opcode byte is the host's numbering (DESIGN CHOICE, log
entry 22). -/
def Obligations.WrittenOutWordsDecode : Prop :=
  decodeTableWord 24 0x080082 = some (.ldi 0 8) ∧ decodeTableWord 24 0x0100A2 = some (.mul 0 1) ∧
    decodeTableWord 16 0x0745 = some (.push 7) ∧ decodeTableWord 16 0x0355 = some (.jeq 3) ∧
    decodeTableWord 8 0x01 = some .hlt ∧ decodeTableWord 8 0x11 = some .ret ∧
    decodeTableWord 8 0x00 = none ∧ decodeTableWord 8 0xC0 = none

/-- The dispatch table of 30_encoding.md 6: 13 entries, each the byte value the opcode table gives it, consulted by
exact equality; a running step on an entry's byte, with its operand bytes after it, runs that entry's
instruction, and an unknown byte is fatal.  The byte values are general knowledge (PRESUMED, log entry 3). -/
def Obligations.DispatchIsByExactByteEquality : Prop :=
  Opcode.all.map (fun op => (op, op.byte)) =
    [(.hlt, 0x01), (.ldi, 0x82), (.prn, 0x47), (.mul, 0xA2), (.add, 0xA0), (.push, 0x45), (.pop, 0x46),
      (.call, 0x50), (.ret, 0x11), (.cmp, 0xA7), (.jmp, 0x54), (.jeq, 0x55), (.jne, 0x56)] ∧
    (Opcode.all.map Opcode.byte).Nodup ∧ (∀ op, op ∈ Opcode.all) ∧
    (∀ (ir : Byte) (op : Opcode), opcodeOf ir = some op ↔ op.byte = ir) ∧
    (∀ (s : State) (a b ir : Byte) (i : Instr),
      (ir, i) ∈ [((0x01 : Byte), Instr.hlt), (0x82, .ldi a b), (0x47, .prn a), (0xA2, .mul a b), (0xA0, .add a b),
        (0x45, .push a), (0x46, .pop a), (0x50, .call a), (0x11, .ret), (0xA7, .cmp a b), (0x54, .jmp a),
        (0x55, .jeq a), (0x56, .jne a)] →
      s.status = .running → s.memRead s.pc.toNat = some ir →
      (∀ (k : Nat) (v : Byte), i.operands[k]? = some v → s.memRead (s.pc.toNat + 1 + k) = some v) →
      step s = exec i { s with ir := ir }) ∧
    (∀ (s : State) (ir : Byte), s.status = .running → s.memRead s.pc.toNat = some ir →
      (∀ op : Opcode, op.byte ≠ ir) → ∃ t r, step s = .next t ∧ t.status = .faulted r)

/-- Decoding the encoding of any instruction, with any bytes after it, gives the instruction and those bytes
(R60, R62): every operand at every value, the ill-formed ones too. -/
def Obligations.DecodeOfEncodeIsTheInstruction : Prop :=
  ∀ (i : Instr) (rest : List Byte), decode (encode i ++ rest) = .ok (i, rest)

/-- The other direction: what decodes is exactly the encoding of what it decodes to, so each byte sequence has
one meaning (R68: no don't-care bits). -/
def Obligations.DecodedBytesAreTheEncoding : Prop :=
  ∀ (bytes rest : List Byte) (i : Instr), decode bytes = .ok (i, rest) → bytes = encode i ++ rest

/-! ### The step -/

/-- A running step with an instruction's bytes at the PC is `exec` of that instruction, on the state whose IR holds
the fetched opcode byte (R70).  No well-formedness is needed. -/
def Obligations.StepRunsTheDecodedInstruction : Prop :=
  ∀ (s : State) (i : Instr), s.status = .running →
    (∀ (k : Nat) (b : Byte), (encode i)[k]? = some b → s.memRead (s.pc.toNat + k) = some b) →
    step s = exec i { s with ir := i.opcode.byte }

/-- R126's order (the spec's decision D8) over a running step, each fault with the whole state it leaves
(decision D10; log entry 10), and no fault when no check fails. -/
def Obligations.StepRaisesTheFirstFaultInOrder : Prop :=
  ∀ s : State, s.status = .running →
    (256 ≤ s.pc.toNat → step s = .next (s.afterFault s.ir .memoryFault s.pc)) ∧
    (∀ ir : Byte, s.memRead s.pc.toNat = some ir → opcodeOf ir = none →
      step s = .next (s.afterFault ir .unimplementedOpcode (ir.setWidth 9))) ∧
    (∀ op : Opcode, s.memRead s.pc.toNat = some op.byte →
      (2 ≤ size op.byte → s.pc.toNat = 255 → step s = .next (s.afterFault op.byte .memoryFault 256)) ∧
      (size op.byte = 3 → s.pc.toNat = 254 → step s = .next (s.afterFault op.byte .memoryFault 256)) ∧
      (s.pc.toNat + size op.byte ≤ 256 → ∀ a b : Byte,
        (2 ≤ size op.byte → s.memRead (s.pc.toNat + 1) = some a) →
        (size op.byte = 3 → s.memRead (s.pc.toNat + 2) = some b) →
        (2 ≤ size op.byte → 8 ≤ a.toNat →
          step s = .next (s.afterFault op.byte .registerIndexFault (a.setWidth 9))) ∧
        (op ∈ [Opcode.mul, .add, .cmp] → a.toNat < 8 → 8 ≤ b.toNat →
          step s = .next (s.afterFault op.byte .registerIndexFault (b.setWidth 9))) ∧
        ((2 ≤ size op.byte → a.toNat < 8) → (op ∈ [Opcode.mul, .add, .cmp] → b.toNat < 8) →
          ∃ t, step s = .next t ∧ ∀ r, t.status ≠ .faulted r)))

/-- R123: a fetched byte with no handler raises UnimplementedOpcode with the PC and the byte, and the source's
example, a program of that one byte, reports PC 0 and the byte.  That the fault changes nothing but IR, the status and
the record is R124's, the spec's decision D10 (log entry 10). -/
def Obligations.IllegalByteRaisesUnimplementedOpcode : Prop :=
  (∀ (s : State) (b : Byte), s.status = .running → s.memRead s.pc.toNat = some b →
    (∀ op : Opcode, op.byte ≠ b) →
    step s = .next (s.afterFault b .unimplementedOpcode (b.setWidth 9))) ∧
  (∀ b : Byte, (∀ op : Opcode, op.byte ≠ b) → ∃ s t, launch [b] = some s ∧ step s = .next t ∧
    t.status = .faulted ⟨.unimplementedOpcode, 0, b.setWidth 9⟩)

/-- Halted and Faulted are terminal: a step changes nothing (R29, R136; the spec's decision D13, log entry 5). -/
def Obligations.StoppedStatusIsTerminal : Prop :=
  (∀ s : State, s.status = .halted → step s = .next s) ∧
    (∀ (s : State) (r : FaultRecord), s.status = .faulted r → step s = .next s)

/-- Nothing is stuck: every step of every state answers a next state (93_implementation_defined.md; log
entries 4 and 5 say why a fault and a stop are next states). -/
def Obligations.EveryStepAnswersANextState : Prop :=
  (∀ s : State, ∃ t, step s = .next t) ∧ (∀ (i : Instr) (s : State), ∃ t, exec i s = .next t)

/-- A fault is precise: the whole state after a step that faults is the state before it but for IR, the status and
the record, and the record has the PC of the faulting instruction (R124, the spec's decisions D10
and D21; log entry 10). -/
def Obligations.FaultIsPrecise : Prop :=
  ∀ (s t : State) (r : FaultRecord), s.status = .running → step s = .next t → t.status = .faulted r →
    r.pc = s.pc ∧ t = s.afterFault ((s.memRead s.pc.toNat).getD s.ir) r.kind r.info

/-- IR is written by the fetch only, by every fetch, and not by a fetch past the end of memory (R25, the spec's
decision D21; log entry 10). -/
def Obligations.IrHoldsTheLastFetchedByte : Prop :=
  (∀ s t : State, s.status = .running → step s = .next t → t.ir = (s.memRead s.pc.toNat).getD s.ir) ∧
    (∀ (i : Instr) (s t : State), exec i s = .next t → t.ir = s.ir)

/-- A running machine becomes Halted by fetching HLT and by nothing else (R72; the spec's decision D13).  HLT's byte is
PRESUMED (log entry 3). -/
def Obligations.OnlyHltHalts : Prop :=
  ∀ s t : State, s.status = .running → step s = .next t →
    (t.status = .halted ↔ s.memRead s.pc.toNat = some 0x01)

/-! ### Memory -/

/-- R41: MemRead answers every address below 256 and nothing above, and using the missing byte raises
`MemoryFault(pc, addr)`.  The bound 511 is the record's width (DESIGN CHOICE, log entry 18), and that the fault changes
nothing but the status and the record is R124's, the spec's decision D10 (log entry 10). -/
def Obligations.MemReadNeverClampsOrWraps : Prop :=
  ∀ (s : State) (addr : Nat),
    (addr < 256 → s.memRead addr = some (s.mem.peek addr)) ∧
    (256 ≤ addr → s.memRead addr = none) ∧
    (256 ≤ addr → addr < 512 → ∀ k : Byte → Result,
      withLoad addr s k = .next (s.afterFault s.ir .memoryFault (BitVec.ofNat 9 addr)))

/-- MemWrite stores the value modulo 256 in the one cell, every later read of it returns that value and every other
read what it returned before; at 256 or more it writes nothing and raises the fault (20_memory.md 2 and 5).  The
bound 511 and what a fault leaves are as for MemRead (log entries 10 and 18). -/
def Obligations.MemWriteChangesOneCellOrFaults : Prop :=
  ∀ (s : State) (addr v : Nat), s.mem.wf →
    (addr < 256 → ∃ t, s.memWrite addr v = some t ∧ t = { s with mem := t.mem } ∧ t.mem.wf ∧
      ∀ x, t.memRead x = if x = addr then some (BitVec.ofNat 8 (v % 256)) else s.memRead x) ∧
    (256 ≤ addr → s.memWrite addr v = none ∧ (addr < 512 → ∀ k : State → Result,
      withStore addr v s k = .next (s.afterFault s.ir .memoryFault (BitVec.ofNat 9 addr))))

/-- The canonical form is one: memories that read alike are equal data. -/
def Obligations.MemoriesThatReadAlikeAreEqual : Prop :=
  ∀ m n : Memory, m.wf → n.wf → (∀ a, a < 256 → m.peek a = n.peek a) → m = n

/-- A byte PUSH or CALL stores where the PC then points is the byte the next step fetches (R53; the spec's decision
D8, log entry 10).  The stored byte is R100's register or R111's return address; the decremented SP for `PUSH R7` and
the return address modulo 256 are the spec's own inferences (DEDUCED, log entry 20). -/
def Obligations.StoredCodeIsFetchedNext : Prop :=
  (∀ (s t u : State) (opA : Byte) (a : RegIdx), s.mem.wf → s.status = .running → opA.toNat = a.val →
    exec (.push opA) s = .next t → (s.reg 7 - 1).toNat = t.pc.toNat → step t = .next u →
    u.ir = if a = 7 then s.reg 7 - 1 else s.reg a) ∧
  (∀ (s t u : State) (opA : Byte) (a : RegIdx), s.mem.wf → s.status = .running → opA.toNat = a.val →
    exec (.call opA) s = .next t → (s.reg 7 - 1).toNat = t.pc.toNat → step t = .next u →
    u.ir = BitVec.ofNat 8 ((s.pc.toNat + 2) % 256))

/-! ### The instructions, one statement per rule

Each gives the encoding, the whole next state on operands that name registers, the register-index fault and the
operand-read fault. -/

/-- HLT, R80.  Its default advance is the spec's decision D13 (log entry 14); the opcode byte is PRESUMED (log
entry 3). -/
def Obligations.HltHaltsAndAdvances : Prop :=
  encode .hlt = [0x01] ∧ size 0x01 = 1 ∧ setsPC 0x01 = false ∧
  (∀ s : State, exec .hlt s = .next { s with status := .halted, pc := s.pc + 1 }) ∧
  (∀ s : State, s.status = .running → s.memRead s.pc.toNat = some 0x01 →
    step s = .next { s with ir := 0x01, status := .halted, pc := s.pc + 1 })

/-- LDI, R81.  The opcode byte is PRESUMED (log entry 3); the
index fault is the spec's decision D9 (log entry 9), and the order of the checks and the state a fault leaves are D8
and D10 (log entry 10). -/
def Obligations.LdiWritesTheImmediate : Prop :=
  (∀ opA imm : Byte, encode (.ldi opA imm) = [0x82, opA, imm]) ∧ size 0x82 = 3 ∧ setsPC 0x82 = false ∧
  (∀ (s : State) (opA imm : Byte) (a : RegIdx), opA.toNat = a.val →
    exec (.ldi opA imm) s = .next { s with regs := s.regs.set a.val imm a.isLt, pc := s.pc + 3 }) ∧
  (∀ (s : State) (opA imm : Byte), 8 ≤ opA.toNat →
    exec (.ldi opA imm) s = .next (s.afterFault s.ir .registerIndexFault (opA.setWidth 9))) ∧
  OperandReadFaultsFrom 0x82 254

/-- PRN, R82.  The event is always accepted: the spec's decision D14 (log entry 13).  The opcode byte is PRESUMED (log entry 3); the
index fault is the spec's decision D9 (log entry 9), and the order of the checks and the state a fault leaves are D8
and D10 (log entry 10). -/
def Obligations.PrnEmitsTheRegister : Prop :=
  (∀ opA : Byte, encode (.prn opA) = [0x47, opA]) ∧ size 0x47 = 2 ∧ setsPC 0x47 = false ∧
  (∀ (s : State) (opA : Byte) (a : RegIdx), opA.toNat = a.val →
    exec (.prn opA) s = .next { s with output := s.output ++ [s.reg a], pc := s.pc + 2 }) ∧
  (∀ (s : State) (opA : Byte), 8 ≤ opA.toNat →
    exec (.prn opA) s = .next (s.afterFault s.ir .registerIndexFault (opA.setWidth 9))) ∧
  OperandReadFaultsFrom 0x47 255

/-- MUL, R91.  The opcode byte is PRESUMED (log entry 3); the
index fault is the spec's decision D9 (log entry 9), and the order of the checks and the state a fault leaves are D8
and D10 (log entry 10). -/
def Obligations.MulWritesTheProductModulo256 : Prop :=
  (∀ opA opB : Byte, encode (.mul opA opB) = [0xA2, opA, opB]) ∧ size 0xA2 = 3 ∧ setsPC 0xA2 = false ∧
  (∀ (s : State) (opA opB : Byte) (a b : RegIdx), opA.toNat = a.val → opB.toNat = b.val →
    exec (.mul opA opB) s = .next { s with
      regs := s.regs.set a.val (BitVec.ofNat 8 ((s.reg a).toNat * (s.reg b).toNat % 256)) a.isLt
      pc := s.pc + 3 }) ∧
  (∀ (s : State) (opA opB : Byte), 8 ≤ opA.toNat →
    exec (.mul opA opB) s = .next (s.afterFault s.ir .registerIndexFault (opA.setWidth 9))) ∧
  (∀ (s : State) (opA opB : Byte), opA.toNat < 8 → 8 ≤ opB.toNat →
    exec (.mul opA opB) s = .next (s.afterFault s.ir .registerIndexFault (opB.setWidth 9))) ∧
  OperandReadFaultsFrom 0xA2 254

/-- ADD, R92.  The opcode byte is PRESUMED (log entry 3); the
index fault is the spec's decision D9 (log entry 9), and the order of the checks and the state a fault leaves are D8
and D10 (log entry 10). -/
def Obligations.AddWritesTheSumModulo256 : Prop :=
  (∀ opA opB : Byte, encode (.add opA opB) = [0xA0, opA, opB]) ∧ size 0xA0 = 3 ∧ setsPC 0xA0 = false ∧
  (∀ (s : State) (opA opB : Byte) (a b : RegIdx), opA.toNat = a.val → opB.toNat = b.val →
    exec (.add opA opB) s = .next { s with
      regs := s.regs.set a.val (BitVec.ofNat 8 (((s.reg a).toNat + (s.reg b).toNat) % 256)) a.isLt
      pc := s.pc + 3 }) ∧
  (∀ (s : State) (opA opB : Byte), 8 ≤ opA.toNat →
    exec (.add opA opB) s = .next (s.afterFault s.ir .registerIndexFault (opA.setWidth 9))) ∧
  (∀ (s : State) (opA opB : Byte), opA.toNat < 8 → 8 ≤ opB.toNat →
    exec (.add opA opB) s = .next (s.afterFault s.ir .registerIndexFault (opB.setWidth 9))) ∧
  OperandReadFaultsFrom 0xA0 254

/-- CMP, R93.  That the comparison is unsigned is the spec's own inference from R20 (log entry 20).  The opcode byte is PRESUMED (log entry 3); the
index fault is the spec's decision D9 (log entry 9), and the order of the checks and the state a fault leaves are D8
and D10 (log entry 10). -/
def Obligations.CmpSetsExactlyOneFlag : Prop :=
  (∀ opA opB : Byte, encode (.cmp opA opB) = [0xA7, opA, opB]) ∧ size 0xA7 = 3 ∧ setsPC 0xA7 = false ∧
  (∀ (s : State) (opA opB : Byte) (a b : RegIdx), opA.toNat = a.val → opB.toNat = b.val →
    exec (.cmp opA opB) s = .next { s with
      flags := ⟨decide ((s.reg a).toNat < (s.reg b).toNat), decide ((s.reg b).toNat < (s.reg a).toNat),
        decide (s.reg a = s.reg b)⟩
      pc := s.pc + 3 }) ∧
  (∀ (s : State) (opA opB : Byte), 8 ≤ opA.toNat →
    exec (.cmp opA opB) s = .next (s.afterFault s.ir .registerIndexFault (opA.setWidth 9))) ∧
  (∀ (s : State) (opA opB : Byte), opA.toNat < 8 → 8 ≤ opB.toNat →
    exec (.cmp opA opB) s = .next (s.afterFault s.ir .registerIndexFault (opB.setWidth 9))) ∧
  OperandReadFaultsFrom 0xA7 254

/-- PUSH, R100: the cell written is the one at the new SP, and `PUSH R7` writes the new SP (log entry 20).  The opcode byte is PRESUMED (log entry 3); the
index fault is the spec's decision D9 (log entry 9), and the order of the checks and the state a fault leaves are D8
and D10 (log entry 10). -/
def Obligations.PushDecrementsThenStores : Prop :=
  (∀ opA : Byte, encode (.push opA) = [0x45, opA]) ∧ size 0x45 = 2 ∧ setsPC 0x45 = false ∧
  (∀ (s : State) (opA : Byte) (a : RegIdx), s.mem.wf → opA.toNat = a.val →
    ∃ t, exec (.push opA) s = .next t ∧
      t = { s with regs := s.regs.set 7 (s.reg 7 - 1), pc := s.pc + 2, mem := t.mem } ∧
      ∀ x, t.memRead x =
        if x = (s.reg 7 - 1).toNat then some (if a = 7 then s.reg 7 - 1 else s.reg a) else s.memRead x) ∧
  (∀ (s : State) (opA : Byte), 8 ≤ opA.toNat →
    exec (.push opA) s = .next (s.afterFault s.ir .registerIndexFault (opA.setWidth 9))) ∧
  OperandReadFaultsFrom 0x45 255

/-- POP, R101.  `POP R7` ends at the loaded value plus 1: the spec's own inference from R12 (log entry 20).  The opcode byte is PRESUMED (log entry 3); the
index fault is the spec's decision D9 (log entry 9), and the order of the checks and the state a fault leaves are D8
and D10 (log entry 10). -/
def Obligations.PopLoadsThenIncrements : Prop :=
  (∀ opA : Byte, encode (.pop opA) = [0x46, opA]) ∧ size 0x46 = 2 ∧ setsPC 0x46 = false ∧
  (∀ (s : State) (opA : Byte) (a : RegIdx) (v : Byte), opA.toNat = a.val →
    s.memRead (s.reg 7).toNat = some v →
    exec (.pop opA) s = .next { s with
      regs := (s.regs.set a.val v a.isLt).set 7 (if a = 7 then v + 1 else s.reg 7 + 1)
      pc := s.pc + 2 }) ∧
  (∀ (s : State) (opA : Byte), 8 ≤ opA.toNat →
    exec (.pop opA) s = .next (s.afterFault s.ir .registerIndexFault (opA.setWidth 9))) ∧
  OperandReadFaultsFrom 0x46 255

/-- CALL, R111.  The return address modulo 256 at `pc = 254` is the spec's own inference from R42 (log entry 20).  The opcode byte is PRESUMED (log entry 3); the
index fault is the spec's decision D9 (log entry 9), and the order of the checks and the state a fault leaves are D8
and D10 (log entry 10). -/
def Obligations.CallStoresTheReturnAddressAndJumps : Prop :=
  (∀ opA : Byte, encode (.call opA) = [0x50, opA]) ∧ size 0x50 = 2 ∧ setsPC 0x50 = true ∧
  (∀ (s : State) (opA : Byte) (a : RegIdx), s.mem.wf → opA.toNat = a.val →
    ∃ t, exec (.call opA) s = .next t ∧
      t = { s with
        regs := s.regs.set 7 (s.reg 7 - 1)
        pc := (if a = 7 then s.reg 7 - 1 else s.reg a).setWidth 9
        mem := t.mem } ∧
      ∀ x, t.memRead x =
        if x = (s.reg 7 - 1).toNat then some (BitVec.ofNat 8 ((s.pc.toNat + 2) % 256)) else s.memRead x) ∧
  (∀ (s : State) (opA : Byte), 8 ≤ opA.toNat →
    exec (.call opA) s = .next (s.afterFault s.ir .registerIndexFault (opA.setWidth 9))) ∧
  OperandReadFaultsFrom 0x50 255

/-- RET, R112: it reads no operand, so it runs at every address.  The opcode byte is PRESUMED (log entry 3). -/
def Obligations.RetJumpsToTheStackedByte : Prop :=
  encode .ret = [0x11] ∧ size 0x11 = 1 ∧ setsPC 0x11 = true ∧
  (∀ (s : State) (v : Byte), s.memRead (s.reg 7).toNat = some v →
    exec .ret s = .next { s with regs := s.regs.set 7 (s.reg 7 + 1), pc := v.setWidth 9 }) ∧
  (∀ (s : State) (v : Byte), s.status = .running → s.memRead s.pc.toNat = some 0x11 →
    s.memRead (s.reg 7).toNat = some v →
    step s = .next { s with ir := 0x11, regs := s.regs.set 7 (s.reg 7 + 1), pc := v.setWidth 9 })

/-- JMP, R113.  The opcode byte is PRESUMED (log entry 3); the
index fault is the spec's decision D9 (log entry 9), and the order of the checks and the state a fault leaves are D8
and D10 (log entry 10). -/
def Obligations.JmpGoesToTheRegister : Prop :=
  (∀ opA : Byte, encode (.jmp opA) = [0x54, opA]) ∧ size 0x54 = 2 ∧ setsPC 0x54 = true ∧
  (∀ (s : State) (opA : Byte) (a : RegIdx), opA.toNat = a.val →
    exec (.jmp opA) s = .next { s with pc := (s.reg a).setWidth 9 }) ∧
  (∀ (s : State) (opA : Byte), 8 ≤ opA.toNat →
    exec (.jmp opA) s = .next (s.afterFault s.ir .registerIndexFault (opA.setWidth 9))) ∧
  OperandReadFaultsFrom 0x54 255

/-- JEQ, R114: the index fault comes whether or not the branch would be taken.  The opcode byte is PRESUMED (log entry 3); the
index fault is the spec's decision D9 (log entry 9), and the order of the checks and the state a fault leaves are D8
and D10 (log entry 10). -/
def Obligations.JeqIsTakenWhenEqual : Prop :=
  (∀ opA : Byte, encode (.jeq opA) = [0x55, opA]) ∧ size 0x55 = 2 ∧ setsPC 0x55 = true ∧
  (∀ (s : State) (opA : Byte) (a : RegIdx), opA.toNat = a.val →
    exec (.jeq opA) s =
      .next { s with pc := if s.flags.e = true then (s.reg a).setWidth 9 else s.pc + 2 }) ∧
  (∀ (s : State) (opA : Byte), 8 ≤ opA.toNat →
    exec (.jeq opA) s = .next (s.afterFault s.ir .registerIndexFault (opA.setWidth 9))) ∧
  OperandReadFaultsFrom 0x55 255

/-- JNE, R115: the same faults as JEQ, and the branch on E being 0.  The opcode byte is PRESUMED (log entry 3); the
index fault is the spec's decision D9 (log entry 9), and the order of the checks and the state a fault leaves are D8
and D10 (log entry 10). -/
def Obligations.JneIsTakenWhenNotEqual : Prop :=
  (∀ opA : Byte, encode (.jne opA) = [0x56, opA]) ∧ size 0x56 = 2 ∧ setsPC 0x56 = true ∧
  (∀ (s : State) (opA : Byte) (a : RegIdx), opA.toNat = a.val →
    exec (.jne opA) s =
      .next { s with pc := if s.flags.e = false then (s.reg a).setWidth 9 else s.pc + 2 }) ∧
  (∀ (s : State) (opA : Byte), 8 ≤ opA.toNat →
    exec (.jne opA) s = .next (s.afterFault s.ir .registerIndexFault (opA.setWidth 9))) ∧
  OperandReadFaultsFrom 0x56 255

/-! ### What no instruction changes -/

/-- R94, whole: over every instruction and over every step, FL changes only by CMP. -/
def Obligations.OnlyCmpWritesTheFlags : Prop :=
  (∀ (i : Instr) (s t : State), (∀ a b, i ≠ .cmp a b) → exec i s = .next t → t.flags = s.flags) ∧
    (∀ s t : State, step s = .next t → t.flags ≠ s.flags →
      s.memRead s.pc.toNat = some Opcode.cmp.byte)

/-- Registers: only the destination, and SP for PUSH, POP, CALL and RET (R21 leaves RET out of its list; R112 writes
SP: log entry 8). -/
def Obligations.OnlyNamedRegistersChange : Prop :=
  ∀ (i : Instr) (s t : State) (r : RegIdx), exec i s = .next t → ¬mayWrite i r → t.reg r = s.reg r

/-- Memory: `storeAddress` gives the one cell PUSH and CALL store to, from the state before the instruction; every
other address, and every address for the other instructions, reads as before.  The premise is the invariant's
canonical form. -/
def Obligations.OnlyTheStackCellIsStored : Prop :=
  ∀ (i : Instr) (s t : State), s.mem.wf → exec i s = .next t →
    (∀ a, storeAddress i s = some a → ∀ x, x ≠ a → t.memRead x = s.memRead x) ∧
    (storeAddress i s = none → ∀ x, t.memRead x = s.memRead x)

/-- Output: PRN appends the register its operand byte names, once, and nothing else touches what was emitted (R32, the
spec's decision D14; log entry 13). -/
def Obligations.OnlyPrnEmits : Prop :=
  (∀ (i : Instr) (s t : State), (∀ a, i ≠ .prn a) → exec i s = .next t → t.output = s.output) ∧
    (∀ s t : State, step s = .next t →
      (t.output = s.output ∧ outputEvent s t = none) ∨
        (s.memRead s.pc.toNat = some 0x47 ∧ ∃ (op : Byte) (a : RegIdx),
          s.memRead (s.pc.toNat + 1) = some op ∧ op.toNat = a.val ∧
          t.output = s.output ++ [s.reg a] ∧ outputEvent s t = some (s.reg a)))

/-- The status under `exec`, that is once the bytes have been fetched: a well-formed instruction other than HLT leaves
it, and an ill-formed one changes only it, with the first operand of 8 or more in the record (R122, the spec's decision
D9, log entry 9).  Which operand is recorded when both are 8 or more, and that nothing else changes, are the spec's
decisions D8 and D10 (R126, R124; log entry 10). -/
def Obligations.OnlyHltAndBadIndexesChangeTheStatus : Prop :=
  (∀ (i : Instr) (s t : State), i.wellFormed = true → i ≠ .hlt → exec i s = .next t → t.status = s.status) ∧
    (∀ (i : Instr) (s : State), i.wellFormed = false → ∃ op : Byte,
      i.registerOperands.find? (fun b => decide (8 ≤ b.toNat)) = some op ∧
      exec i s = .next (s.afterFault s.ir .registerIndexFault (op.setWidth 9)))

/-- The PC: an instruction that is not sets-PC adds its size; a sets-PC one puts a byte there, or, for a JEQ or JNE
not taken, adds its size itself (10_state.md 2). -/
def Obligations.PcIsWrittenInExactlyOneWay : Prop :=
  ∀ (i : Instr) (s t : State), i.wellFormed = true → exec i s = .next t →
    (setsPC i.opcode.byte = false → t.pc = s.pc + BitVec.ofNat 9 (encode i).length) ∧
    (setsPC i.opcode.byte = true → (∃ v : Byte, t.pc = v.setWidth 9) ∨
      ((∃ a, i = .jeq a ∨ i = .jne a) ∧ t.pc = s.pc + 2))

/-! ### Invariants -/

/-- The invariant holds at reset. -/
def Obligations.ResetMeetsTheInvariant : Prop := State.reset.Inv

/-- Every step keeps the invariant: canonical memory, a PC of 0 to 258, exclusive flags, and a status and fault record
that agree with the rest of the state. -/
def Obligations.EveryStepKeepsTheInvariant : Prop :=
  ∀ s t : State, s.Inv → step s = .next t → t.Inv

/-- From any running state, a step that raises no fault leaves a PC of at most 256: tighter than R23's 258, and the
model's own inference (log entry 7). -/
def Obligations.CompletedStepLeavesPcAtMost256 : Prop :=
  ∀ s t : State, s.status = .running → step s = .next t → (∀ r, t.status ≠ .faulted r) → t.pc.toNat ≤ 256

/-! ### Instructions together -/

/-- R102's round trip (the spec's own inference, log entry 20): PUSH then POP of the same register restores it and SP, R7
included. -/
def Obligations.PushThenPopRestoresRegisterAndSp : Prop :=
  ∀ (s : State) (op : Byte) (a : RegIdx), s.mem.wf → op.toNat = a.val →
    ∃ t u, exec (.push op) s = .next t ∧ exec (.pop op) t = .next u ∧
      (∀ r, u.reg r = s.reg r) ∧ t.reg 7 = s.reg 7 - 1

/-- A RET that finds SP and the cell at SP as the CALL left them goes to the instruction after a CALL at 0 to 253, and
to 0 after a CALL at 254 (R112, 90_conflicts.md C5; the modulus is DEDUCED by the spec, log entry 20). -/
def Obligations.RetReturnsAfterItsCall : Prop :=
  ∀ (s t u v : State) (op : Byte), s.mem.wf → op.toNat < 8 → s.pc.toNat ≤ 254 → exec (.call op) s = .next t →
    u.reg 7 = t.reg 7 → u.memRead (u.reg 7).toNat = t.memRead (u.reg 7).toNat → exec .ret u = .next v →
    (s.pc.toNat ≤ 253 → v.pc = s.pc + 2) ∧ (s.pc.toNat = 254 → v.pc = 0) ∧ v.reg 7 = s.reg 7

/-- For the same FL and register, exactly one of JEQ and JNE is taken (R115), and after a CMP that one is JEQ exactly
when the registers are equal. -/
def Obligations.ExactlyOneOfJeqAndJneIsTaken : Prop :=
  ∀ (s c t u : State) (opA opB op : Byte) (a b r : RegIdx),
    opA.toNat = a.val → opB.toNat = b.val → op.toNat = r.val →
    exec (.cmp opA opB) s = .next c → exec (.jeq op) c = .next t → exec (.jne op) c = .next u →
    (s.reg a = s.reg b → t.pc = (s.reg r).setWidth 9 ∧ u.pc = c.pc + 2) ∧
    (s.reg a ≠ s.reg b → t.pc = c.pc + 2 ∧ u.pc = (s.reg r).setWidth 9)

/-! ### The boundary -/

/-- The status ports (R29, R30; the spec's decisions D12, D13 and D20; log entries 15 and 18). -/
def Obligations.PortsReportTheStatus : Prop :=
  ∀ s : State,
    (s.status = .running → s.haltedPort = false ∧ s.faultedPort = false ∧ s.faultKindPort = 0 ∧
      s.faultPcPort = 0 ∧ s.faultInfoPort = 0) ∧
    (s.status = .halted → s.haltedPort = true ∧ s.faultedPort = false ∧ s.faultKindPort = 0 ∧
      s.faultPcPort = 0 ∧ s.faultInfoPort = 0) ∧
    (∀ r, s.status = .faulted r → s.haltedPort = false ∧ s.faultedPort = true ∧
      s.faultKindPort = (match r.kind with
        | .memoryFault => 1 | .unimplementedOpcode => 2 | .registerIndexFault => 3) ∧
      s.faultPcPort = r.pc ∧ s.faultInfoPort = r.info)

/-- The launch state is the reset state with the image over the fill, and a longer image is refused (R141 to R143;
the spec's decisions D6, D17 and D22; log entries 2 and 6). -/
def Obligations.LaunchPlacesTheImageOverTheFill : Prop :=
  ∀ image : List Byte,
    (image.length ≤ 256 → ∃ s, launch image = some s ∧ s = { State.reset with mem := s.mem } ∧ s.mem.wf ∧
      ∀ a, a < 256 → s.memRead a = some (image.getD a 0)) ∧
    (256 < image.length → launch image = none)

/-- From a block whose `rst` was low, whatever its core was doing, a tick that asserts `rst` and then the loader's
writes, one byte per tick, bring the block to the launch state of that image (R140 to R143; the spec's decisions D12
and D17).  Ticks are the model's form of the boundary (DESIGN CHOICE, log entry 15). -/
def Obligations.ResetAndLoadReachTheLaunchState : Prop :=
  ∀ (c : State) (image : List Byte), image.length ≤ 256 →
    ∃ s, launch image = some s ∧
      Block.ticks (resetInput :: loaderInputs 0 image) ⟨false, c⟩ = .next ⟨true, s⟩

/-- While `rst` is released the loader's inputs are ignored and a tick is one step.  While it is asserted no instruction
runs: every field but memory has its reset value, and memory is what it was when the reset goes on, or the fill 0x00
in every cell when the reset starts, with exactly the loader's byte written over it when `load_we` is 1 (R140 to
R142; the spec's decisions D6, D12 and D17, log entry 2).  Ticks are the model's form of the boundary (DESIGN CHOICE,
log entry 15); the canonical form is the invariant's. -/
def Obligations.LoaderWritesOnlyInReset : Prop :=
  (∀ (b : Block) (inp : Inputs), inp.rst = false →
    ∃ t, step b.core = .next t ∧ b.tick inp = .next ⟨false, t⟩) ∧
  (∀ (b : Block) (inp : Inputs), inp.rst = true →
    ∃ t, b.tick inp = .next ⟨true, t⟩ ∧ t = { State.reset with mem := t.mem } ∧
      (b.rst = false ∨ b.core.mem.wf → t.mem.wf ∧ ∀ x, t.memRead x =
        if inp.loadWe = true ∧ x = inp.loadAddr.toNat then some inp.loadData
        else if b.rst = true then b.core.memRead x
        else if x < 256 then some 0 else none))

/-- A run that halts never ends in a fault: the two ends of R148 exclude each other. -/
def Obligations.HaltedRunNeverFaults : Prop :=
  ∀ s : State, HaltsCleanly s → ¬EndsFaulted s
end

