-- ==== Sys2Proof/Laws/Decode.lean ====
section
/-!
SUPPORT. The small lemmas of the opcode table, the decoder and the operand reads.
-/

namespace Sys2Proof

/-- The table finds each operation by its own byte. -/
@[simp] theorem opcodeOf_byte (op : Opcode) : opcodeOf op.byte = some op := by
  cases op <;> rfl

/-- Whatever the table finds has exactly the byte looked up. -/
theorem byte_of_opcodeOf (ir : Byte) (op : Opcode) (h : opcodeOf ir = some op) : op.byte = ir := by
  simpa using List.find?_some h

/-- An operand that is there and needed is read. -/
theorem readOperand_present (byteAt : Nat → Option Byte) (n k : Nat) (b : Byte) (hk : k < n)
    (hb : byteAt k = some b) : readOperand byteAt n k = .ok b := by
  simp [readOperand, hk, hb]

/-- An operand that is needed and missing ends the reading at its offset. -/
theorem readOperand_missing (byteAt : Nat → Option Byte) (n k : Nat) (hk : k < n)
    (hb : byteAt k = none) : readOperand byteAt n k = .error (.missingByte k) := by
  simp [readOperand, hk, hb]

/-- An operand the instruction does not have is not read. -/
theorem readOperand_absent (byteAt : Nat → Option Byte) (n k : Nat) (hk : n ≤ k) :
    readOperand byteAt n k = .ok 0 := by
  simp [readOperand, Nat.not_lt.2 hk]

/-- Everything reading an operand can do. -/
theorem readOperand_cases (byteAt : Nat → Option Byte) (n k : Nat) :
    (n ≤ k ∧ readOperand byteAt n k = .ok 0) ∨
      (∃ b, k < n ∧ byteAt k = some b ∧ readOperand byteAt n k = .ok b) ∨
      (k < n ∧ byteAt k = none ∧ readOperand byteAt n k = .error (.missingByte k)) := by
  by_cases hk : k < n
  · cases hb : byteAt k with
    | none => exact .inr (.inr ⟨hk, rfl, readOperand_missing byteAt n k hk hb⟩)
    | some b => exact .inr (.inl ⟨b, hk, rfl, readOperand_present byteAt n k b hk hb⟩)
  · exact .inl ⟨by omega, readOperand_absent byteAt n k (by omega)⟩

/-- Only the operand count of an instruction decides how many bytes it has. -/
theorem size_byte (op : Opcode) :
    size op.byte = match op with
      | .hlt => 1 | .ldi => 3 | .prn => 2 | .mul => 3 | .add => 3 | .push => 2 | .pop => 2
      | .call => 2 | .ret => 1 | .cmp => 3 | .jmp => 2 | .jeq => 2 | .jne => 2 := by
  cases op <;> rfl

/-- The sets-PC instructions are CALL, RET, JMP, JEQ and JNE (R24, R63). -/
theorem setsPC_byte (op : Opcode) :
    setsPC op.byte = match op with
      | .call => true | .ret => true | .jmp => true | .jeq => true | .jne => true
      | .hlt => false | .ldi => false | .prn => false | .mul => false | .add => false
      | .push => false | .pop => false | .cmp => false := by
  cases op <;> rfl

/-- An instruction is assembled from its own operation and operands. -/
theorem assemble_opcode (op : Opcode) (a b : Byte) : (op.assemble a b).opcode = op := by
  cases op <;> rfl

end Sys2Proof
end

