-- ==== Sys2Proof/Laws/State.lean ====
section
/-!
SUPPORT. One lemma per field of State per update, true by unfolding, and the reading of registers after an update.
-/

namespace Sys2Proof.Machine

/-! ### setReg -/

@[simp] theorem State.setReg_regs (s : State) (i : RegIdx) (v : Byte) : (s.setReg i v).regs = s.regs.set i.val v i.isLt := rfl
@[simp] theorem State.setReg_pc (s : State) (i : RegIdx) (v : Byte) : (s.setReg i v).pc = s.pc := rfl
@[simp] theorem State.setReg_ir (s : State) (i : RegIdx) (v : Byte) : (s.setReg i v).ir = s.ir := rfl
@[simp] theorem State.setReg_flags (s : State) (i : RegIdx) (v : Byte) : (s.setReg i v).flags = s.flags := rfl
@[simp] theorem State.setReg_status (s : State) (i : RegIdx) (v : Byte) : (s.setReg i v).status = s.status := rfl
@[simp] theorem State.setReg_mem (s : State) (i : RegIdx) (v : Byte) : (s.setReg i v).mem = s.mem := rfl
@[simp] theorem State.setReg_output (s : State) (i : RegIdx) (v : Byte) : (s.setReg i v).output = s.output := rfl

/-! ### setSp -/

@[simp] theorem State.setSp_regs (s : State) (v : Byte) : (s.setSp v).regs = s.regs.set 7 v := rfl
@[simp] theorem State.setSp_pc (s : State) (v : Byte) : (s.setSp v).pc = s.pc := rfl
@[simp] theorem State.setSp_ir (s : State) (v : Byte) : (s.setSp v).ir = s.ir := rfl
@[simp] theorem State.setSp_flags (s : State) (v : Byte) : (s.setSp v).flags = s.flags := rfl
@[simp] theorem State.setSp_status (s : State) (v : Byte) : (s.setSp v).status = s.status := rfl
@[simp] theorem State.setSp_mem (s : State) (v : Byte) : (s.setSp v).mem = s.mem := rfl
@[simp] theorem State.setSp_output (s : State) (v : Byte) : (s.setSp v).output = s.output := rfl

/-! ### setPc -/

@[simp] theorem State.setPc_regs (s : State) (p : PcWord) : (s.setPc p).regs = s.regs := rfl
@[simp] theorem State.setPc_pc (s : State) (p : PcWord) : (s.setPc p).pc = p := rfl
@[simp] theorem State.setPc_ir (s : State) (p : PcWord) : (s.setPc p).ir = s.ir := rfl
@[simp] theorem State.setPc_flags (s : State) (p : PcWord) : (s.setPc p).flags = s.flags := rfl
@[simp] theorem State.setPc_status (s : State) (p : PcWord) : (s.setPc p).status = s.status := rfl
@[simp] theorem State.setPc_mem (s : State) (p : PcWord) : (s.setPc p).mem = s.mem := rfl
@[simp] theorem State.setPc_output (s : State) (p : PcWord) : (s.setPc p).output = s.output := rfl

/-! ### setIr -/

@[simp] theorem State.setIr_regs (s : State) (b : Byte) : (s.setIr b).regs = s.regs := rfl
@[simp] theorem State.setIr_pc (s : State) (b : Byte) : (s.setIr b).pc = s.pc := rfl
@[simp] theorem State.setIr_ir (s : State) (b : Byte) : (s.setIr b).ir = b := rfl
@[simp] theorem State.setIr_flags (s : State) (b : Byte) : (s.setIr b).flags = s.flags := rfl
@[simp] theorem State.setIr_status (s : State) (b : Byte) : (s.setIr b).status = s.status := rfl
@[simp] theorem State.setIr_mem (s : State) (b : Byte) : (s.setIr b).mem = s.mem := rfl
@[simp] theorem State.setIr_output (s : State) (b : Byte) : (s.setIr b).output = s.output := rfl

/-! ### setFlags -/

@[simp] theorem State.setFlags_regs (s : State) (f : Flags) : (s.setFlags f).regs = s.regs := rfl
@[simp] theorem State.setFlags_pc (s : State) (f : Flags) : (s.setFlags f).pc = s.pc := rfl
@[simp] theorem State.setFlags_ir (s : State) (f : Flags) : (s.setFlags f).ir = s.ir := rfl
@[simp] theorem State.setFlags_flags (s : State) (f : Flags) : (s.setFlags f).flags = f := rfl
@[simp] theorem State.setFlags_status (s : State) (f : Flags) : (s.setFlags f).status = s.status := rfl
@[simp] theorem State.setFlags_mem (s : State) (f : Flags) : (s.setFlags f).mem = s.mem := rfl
@[simp] theorem State.setFlags_output (s : State) (f : Flags) : (s.setFlags f).output = s.output := rfl

/-! ### emit -/

@[simp] theorem State.emit_regs (s : State) (v : Byte) : (s.emit v).regs = s.regs := rfl
@[simp] theorem State.emit_pc (s : State) (v : Byte) : (s.emit v).pc = s.pc := rfl
@[simp] theorem State.emit_ir (s : State) (v : Byte) : (s.emit v).ir = s.ir := rfl
@[simp] theorem State.emit_flags (s : State) (v : Byte) : (s.emit v).flags = s.flags := rfl
@[simp] theorem State.emit_status (s : State) (v : Byte) : (s.emit v).status = s.status := rfl
@[simp] theorem State.emit_mem (s : State) (v : Byte) : (s.emit v).mem = s.mem := rfl
@[simp] theorem State.emit_output (s : State) (v : Byte) : (s.emit v).output = s.output ++ [v] := rfl

/-! ### halt -/

@[simp] theorem State.halt_regs (s : State) : (s.halt).regs = s.regs := rfl
@[simp] theorem State.halt_pc (s : State) : (s.halt).pc = s.pc := rfl
@[simp] theorem State.halt_ir (s : State) : (s.halt).ir = s.ir := rfl
@[simp] theorem State.halt_flags (s : State) : (s.halt).flags = s.flags := rfl
@[simp] theorem State.halt_status (s : State) : (s.halt).status = .halted := rfl
@[simp] theorem State.halt_mem (s : State) : (s.halt).mem = s.mem := rfl
@[simp] theorem State.halt_output (s : State) : (s.halt).output = s.output := rfl

/-! ### raise -/

@[simp] theorem State.raise_regs (s : State) (k : Fault) (n : BitVec 9) : (s.raise k n).regs = s.regs := rfl
@[simp] theorem State.raise_pc (s : State) (k : Fault) (n : BitVec 9) : (s.raise k n).pc = s.pc := rfl
@[simp] theorem State.raise_ir (s : State) (k : Fault) (n : BitVec 9) : (s.raise k n).ir = s.ir := rfl
@[simp] theorem State.raise_flags (s : State) (k : Fault) (n : BitVec 9) : (s.raise k n).flags = s.flags := rfl
@[simp] theorem State.raise_status (s : State) (k : Fault) (n : BitVec 9) : (s.raise k n).status = .faulted ⟨k, s.pc, n⟩ := rfl
@[simp] theorem State.raise_mem (s : State) (k : Fault) (n : BitVec 9) : (s.raise k n).mem = s.mem := rfl
@[simp] theorem State.raise_output (s : State) (k : Fault) (n : BitVec 9) : (s.raise k n).output = s.output := rfl

/-! ### Reading registers -/

/-- A register reads as the value last written to it; the others are unchanged. -/
theorem State.reg_setReg (s : State) (i j : RegIdx) (v : Byte) :
    (s.setReg i v).reg j = if i = j then v else s.reg j := by
  have hval : (i.val = j.val) = (i = j) := by simp [Fin.ext_iff]
  simp only [State.reg, State.setReg, Fin.getElem_fin, Vector.getElem_set, hval]

@[simp] theorem State.reg_setReg_self (s : State) (i : RegIdx) (v : Byte) : (s.setReg i v).reg i = v := by
  simp [State.reg_setReg]

theorem State.reg_setReg_other (s : State) (i j : RegIdx) (v : Byte) (h : i ≠ j) :
    (s.setReg i v).reg j = s.reg j := by
  simp [State.reg_setReg, h]

@[simp] theorem State.sp_setSp (s : State) (v : Byte) : (s.setSp v).sp = v := by
  simp [State.sp, State.setSp]

theorem State.reg_setSp (s : State) (j : RegIdx) (v : Byte) :
    (s.setSp v).reg j = if j = 7 then v else s.reg j := by
  simp [State.setSp, State.reg_setReg, eq_comm]

/-- Reading a register looks only at the register file. -/
theorem State.reg_congr (s t : State) (h : s.regs = t.regs) (i : RegIdx) : s.reg i = t.reg i := by
  simp [State.reg, h]

@[simp] theorem State.reg_setPc (s : State) (p : PcWord) (i : RegIdx) : (s.setPc p).reg i = s.reg i := rfl
@[simp] theorem State.reg_setIr (s : State) (b : Byte) (i : RegIdx) : (s.setIr b).reg i = s.reg i := rfl
@[simp] theorem State.reg_setFlags (s : State) (f : Flags) (i : RegIdx) : (s.setFlags f).reg i = s.reg i := rfl
@[simp] theorem State.reg_emit (s : State) (v : Byte) (i : RegIdx) : (s.emit v).reg i = s.reg i := rfl
@[simp] theorem State.reg_halt (s : State) (i : RegIdx) : s.halt.reg i = s.reg i := rfl
@[simp] theorem State.reg_raise (s : State) (k : Fault) (n : BitVec 9) (i : RegIdx) :
    (s.raise k n).reg i = s.reg i := rfl

/-! ### Reading memory -/

/-- Reading a cell looks only at the memory array. -/
theorem State.memRead_congr (s t : State) (h : s.mem = t.mem) (a : Nat) : s.memRead a = t.memRead a := by
  simp [State.memRead, h]

end Sys2Proof.Machine
end

