-- ==== Sys2Proof/Laws/Memory.lean ====
section
/-!
SUPPORT. The memory array: reading after storing, and the canonical form, kept by every memory operation.
-/

namespace Sys2Proof.Machine

/-- The size of memory as a number, for arithmetic. -/
@[simp] theorem memSize_eq : Config.memSize = 256 := rfl

/-! ### Reading after storing -/

theorem Memory.peek_entry_append (addr b : Nat) (v : Byte) (m : Memory)
    (h : addr = b → m.peek b = Config.memFill) :
    Memory.peek (Memory.entry addr v ++ m) b = if addr = b then v else m.peek b := by
  by_cases hv : v = Config.memFill
  · by_cases hb : addr = b <;> simp_all [Memory.entry]
  · rw [Memory.entry, if_neg hv]; simp [Memory.peek]

/-- An address below every listed one reads as the fill value. -/
theorem Memory.peek_of_below (m : Memory) (b : Nat) (h : ∀ c ∈ m, b < c.1) : m.peek b = Config.memFill := by
  induction m with
  | nil => rfl
  | cons c rest ih =>
    have hne : c.1 ≠ b := Nat.ne_of_gt (h c (by simp))
    simp only [Memory.peek, if_neg hne]
    exact ih fun d hd => h d (by simp [hd])

/-- In a canonical memory the addresses after the first entry lie above it. -/
theorem Memory.wf_tail (c : Host.Cell) (m : Memory) (h : Memory.wf (c :: m)) :
    m.wf ∧ (∀ d ∈ m, c.1 < d.1) ∧ c.1 < Config.memSize ∧ c.2 ≠ Config.memFill := by
  obtain ⟨hp, ha⟩ := h
  rw [List.pairwise_cons] at hp
  have hc := ha c (by simp)
  exact ⟨⟨hp.2, fun d hd => ha d (by simp [hd])⟩, hp.1, hc.1, hc.2⟩

/-- A stored byte is read back; every other cell is unchanged. -/
theorem Memory.peek_poke (addr b : Nat) (v : Byte) (m : Memory) (h : m.wf) :
    (m.poke addr v).peek b = if addr = b then v else m.peek b := by
  induction m with
  | nil =>
    simpa [Memory.poke, Memory.peek] using
      Memory.peek_entry_append addr b v [] (fun _ => rfl)
  | cons c rest ih =>
    obtain ⟨a, w⟩ := c
    obtain ⟨hrest, habove, -, -⟩ := Memory.wf_tail (a, w) rest h
    have ih := ih hrest
    simp only [Memory.poke]
    split
    · next hlt =>
      refine Memory.peek_entry_append addr b v _ fun hb => ?_
      refine Memory.peek_of_below _ _ fun d hd => ?_
      obtain rfl | hd := List.mem_cons.1 hd
      · omega
      · have := habove d hd; omega
    · split
      · next hge heq =>
        rw [Memory.peek_entry_append]
        · by_cases hb : addr = b <;> simp [hb, Memory.peek, heq ▸ hb]
        · exact fun hb => Memory.peek_of_below _ _ fun d hd => by have := habove d hd; omega
      · next hge hne =>
        simp only [Memory.peek, ih]
        split
        · next hab => rw [if_neg (by omega)]
        · rfl

/-! ### The canonical form -/

theorem Memory.mem_poke (addr : Nat) (v : Byte) (m : Memory) (c : Host.Cell) (h : c ∈ m.poke addr v) :
    c ∈ m ∨ (c = (addr, v) ∧ v ≠ Config.memFill) := by
  have hentry : ∀ d ∈ Memory.entry addr v, d = (addr, v) ∧ v ≠ Config.memFill := by
    intro d hd
    by_cases hv : v = Config.memFill <;> simp_all [Memory.entry]
  induction m with
  | nil => exact .inr (hentry c h)
  | cons e rest ih =>
    obtain ⟨a, w⟩ := e
    simp only [Memory.poke] at h
    split at h
    · obtain h | h := List.mem_append.1 h
      · exact .inr (hentry c h)
      · exact .inl h
    · split at h
      · obtain h | h := List.mem_append.1 h
        · exact .inr (hentry c h)
        · exact .inl (by simp [h])
      · obtain rfl | h := List.mem_cons.1 h
        · exact .inl (by simp)
        · exact (ih h).imp_left fun h => by simp [h]

theorem Memory.pairwise_entry_append (addr : Nat) (v : Byte) (m : Memory)
    (hm : m.Pairwise (fun c d => c.1 < d.1)) (h : ∀ d ∈ m, addr < d.1) :
    (Memory.entry addr v ++ m).Pairwise (fun c d => c.1 < d.1) := by
  by_cases hv : v = Config.memFill
  · simpa [Memory.entry, hv] using hm
  · rw [Memory.entry, if_neg hv]; exact List.pairwise_cons.2 ⟨h, hm⟩

/-- Storing a byte in an existing cell keeps the canonical form. -/
theorem Memory.wf_poke (addr : Nat) (v : Byte) (m : Memory) (h : m.wf) (haddr : addr < Config.memSize) :
    (m.poke addr v).wf := by
  refine ⟨?_, fun c hc => ?_⟩
  · induction m with
    | nil => simpa [Memory.poke] using Memory.pairwise_entry_append addr v [] .nil (by simp)
    | cons e rest ih =>
      obtain ⟨a, w⟩ := e
      obtain ⟨hrest, habove, -, -⟩ := Memory.wf_tail (a, w) rest h
      simp only [Memory.poke]
      split
      · next hlt =>
        refine Memory.pairwise_entry_append addr v _ h.1 fun d hd => ?_
        obtain rfl | hd := List.mem_cons.1 hd
        · exact hlt
        · exact hlt.trans (habove d hd)
      · split
        · next heq => exact Memory.pairwise_entry_append addr v _ hrest.1 (heq ▸ habove)
        · next hge hne =>
          refine List.pairwise_cons.2 ⟨fun d hd => ?_, ih hrest⟩
          obtain hd | ⟨rfl, -⟩ := Memory.mem_poke addr v rest d hd
          · exact habove d hd
          · show a < addr; omega
  · obtain hc | ⟨rfl, hv⟩ := Memory.mem_poke addr v m c hc
    · exact h.2 c hc
    · exact ⟨haddr, hv⟩

theorem Memory.wf_nil : Memory.wf [] := by simp [Memory.wf]

/-- Loading an image that ends within memory keeps the canonical form. -/
theorem Memory.wf_pokeList (vs : List Byte) (addr : Nat) (m : Memory) (h : m.wf)
    (hfit : addr + vs.length ≤ Config.memSize) : (Memory.pokeList addr vs m).wf := by
  induction vs generalizing addr m with
  | nil => exact h
  | cons v vs ih =>
    simp only [List.length_cons] at hfit
    exact ih (addr + 1) _ (Memory.wf_poke addr v m h (by omega)) (by omega)

/-- Placing bytes on the existing cells keeps the canonical form. -/
theorem Memory.wf_pokeExisting (vs : List Byte) (addr : Nat) (m : Memory) (h : m.wf) :
    (Memory.pokeExisting addr vs m).wf := by
  induction vs generalizing addr m with
  | nil => exact h
  | cons v vs ih =>
    refine ih (addr + 1) _ ?_
    split
    · next hlt => exact Memory.wf_poke addr v m h hlt
    · exact h

/-! ### The access primitives -/

/-- Everything MemWrite can do: the address exists and only that cell of memory changes. -/
theorem State.memWrite_cases (s t : State) (addr v : Nat) (h : s.memWrite addr v = some t) :
    addr < Config.memSize ∧ t = { s with mem := s.mem.poke addr (BitVec.ofNat 8 v) } := by
  unfold State.memWrite at h
  split at h
  · next hlt => exact ⟨hlt, (Option.some.inj h).symm⟩
  · cases h

/-- A byte is a cell's address: MemRead there answers. -/
@[simp] theorem State.memRead_byte (s : State) (b : Byte) : s.memRead b.toNat = some (s.mem.peek b.toNat) := by
  simp [State.memRead, show b.toNat < 256 from b.isLt]

end Sys2Proof.Machine
end

