-- ==== Sys2Proof/Laws/Operands.lean ====
section
/-!
SUPPORT. What each operand operation and the default advance can do, said once; the meanings' proofs cite these.
-/

namespace Sys2Proof.Machine

/-! ### Register operands -/

theorem regIndex_of_lt (op : Byte) (r : RegIdx) (h : op.toNat = r.val) : regIndex op = some r := by
  have hlt : op.toNat < 8 := h ▸ r.isLt
  simp [regIndex, h]

theorem regIndex_of_ge (op : Byte) (h : 8 ≤ op.toNat) : regIndex op = none := by
  simp [regIndex, Nat.not_lt.2 h]

/-- An operand byte that names a register goes on with it. -/
theorem withReg_of_lt (op : Byte) (r : RegIdx) (s : State) (k : RegIdx → Result) (h : op.toNat = r.val) :
    withReg op s k = k r := by
  simp [withReg, regIndex_of_lt op r h]

/-- An operand byte of 8 or more raises RegisterIndexFault. -/
theorem withReg_of_ge (op : Byte) (s : State) (k : RegIdx → Result) (h : 8 ≤ op.toNat) :
    withReg op s k = .next (s.raise .registerIndexFault (op.setWidth 9)) := by
  simp [withReg, regIndex_of_ge op h]

/-- Everything a register operand can do. -/
theorem withReg_cases (op : Byte) (s : State) (k : RegIdx → Result) :
    (∃ r : RegIdx, op.toNat = r.val ∧ withReg op s k = k r) ∨
      (8 ≤ op.toNat ∧ withReg op s k = .next (s.raise .registerIndexFault (op.setWidth 9))) := by
  by_cases h : op.toNat < 8
  · exact .inl ⟨⟨op.toNat, h⟩, rfl, withReg_of_lt op _ s k rfl⟩
  · exact .inr ⟨by omega, withReg_of_ge op s k (by omega)⟩

/-- Two operand bytes that name registers go on with them. -/
theorem withRegs_of_lt (opA opB : Byte) (a b : RegIdx) (s : State) (k : RegIdx → RegIdx → Result)
    (ha : opA.toNat = a.val) (hb : opB.toNat = b.val) : withRegs opA opB s k = k a b := by
  simp [withRegs, withReg_of_lt opA a s _ ha, withReg_of_lt opB b s _ hb]

/-- Everything two register operands can do: `op_a` is checked first. -/
theorem withRegs_cases (opA opB : Byte) (s : State) (k : RegIdx → RegIdx → Result) :
    (∃ a b : RegIdx, opA.toNat = a.val ∧ opB.toNat = b.val ∧ withRegs opA opB s k = k a b) ∨
      (8 ≤ opA.toNat ∧ withRegs opA opB s k = .next (s.raise .registerIndexFault (opA.setWidth 9))) ∨
      (opA.toNat < 8 ∧ 8 ≤ opB.toNat ∧
        withRegs opA opB s k = .next (s.raise .registerIndexFault (opB.setWidth 9))) := by
  obtain ⟨a, ha, hka⟩ | ⟨ha, hka⟩ := withReg_cases opA s fun a => withReg opB s fun b => k a b
  · obtain ⟨b, hb, hkb⟩ | ⟨hb, hkb⟩ := withReg_cases opB s fun b => k a b
    · exact .inl ⟨a, b, ha, hb, hka.trans hkb⟩
    · exact .inr (.inr ⟨ha ▸ a.isLt, hb, hka.trans hkb⟩)
  · exact .inr (.inl ⟨ha, hka⟩)

/-! ### Memory operands -/

/-- A load at a byte's address never faults (R43): SP is always a valid address. -/
@[simp] theorem withLoad_byte (b : Byte) (s : State) (k : Byte → Result) :
    withLoad b.toNat s k = k (s.mem.peek b.toNat) := by
  simp [withLoad]

/-- A store at a byte's address never faults (R43), and writes that cell only. -/
@[simp] theorem withStore_byte (b : Byte) (v : Nat) (s : State) (k : State → Result) :
    withStore b.toNat v s k = k { s with mem := s.mem.poke b.toNat (BitVec.ofNat 8 v) } := by
  simp [withStore, State.memWrite, show b.toNat < 256 from b.isLt]

/-! ### The default advance -/

/-- The default advance changes the PC only: by the size of an instruction that does not set it (R24). -/
theorem State.defaultAdvance_eq (s : State) (op : Opcode) :
    s.defaultAdvance op = match op with
      | .hlt => s.setPc (s.pc + 1)
      | .ldi => s.setPc (s.pc + 3)
      | .prn => s.setPc (s.pc + 2)
      | .mul => s.setPc (s.pc + 3)
      | .add => s.setPc (s.pc + 3)
      | .push => s.setPc (s.pc + 2)
      | .pop => s.setPc (s.pc + 2)
      | .cmp => s.setPc (s.pc + 3)
      | .call => s
      | .ret => s
      | .jmp => s
      | .jeq => s
      | .jne => s := by
  cases op <;> rfl

end Sys2Proof.Machine
end

