-- ==== Sys2Proof/Laws/PerInstr.lean ====
section
/-!
SUPPORT. Statements about every instruction as syntax, one lemma per constructor.
-/

namespace Sys2Proof.Laws.EncodedLength

/-- An instruction's encoding is as long as the decoder says from its opcode byte alone (R65, R69), and its
operand bytes are at least its register operands (R64). -/
def Statement (i : Instr) : Prop :=
  (encode i).length = size i.opcode.byte ∧ i.registerOperands.length ≤ i.operands.length

theorem hlt : Statement .hlt := ⟨(size_byte .hlt).symm, Nat.le_refl _⟩
theorem ldi (opA imm : Byte) : Statement (.ldi opA imm) := ⟨(size_byte .ldi).symm, Nat.le_succ 1⟩
theorem prn (opA : Byte) : Statement (.prn opA) := ⟨(size_byte .prn).symm, Nat.le_refl _⟩
theorem mul (opA opB : Byte) : Statement (.mul opA opB) := ⟨(size_byte .mul).symm, Nat.le_refl _⟩
theorem add (opA opB : Byte) : Statement (.add opA opB) := ⟨(size_byte .add).symm, Nat.le_refl _⟩
theorem push (opA : Byte) : Statement (.push opA) := ⟨(size_byte .push).symm, Nat.le_refl _⟩
theorem pop (opA : Byte) : Statement (.pop opA) := ⟨(size_byte .pop).symm, Nat.le_refl _⟩
theorem call (opA : Byte) : Statement (.call opA) := ⟨(size_byte .call).symm, Nat.le_refl _⟩
theorem ret : Statement .ret := ⟨(size_byte .ret).symm, Nat.le_refl _⟩
theorem cmp (opA opB : Byte) : Statement (.cmp opA opB) := ⟨(size_byte .cmp).symm, Nat.le_refl _⟩
theorem jmp (opA : Byte) : Statement (.jmp opA) := ⟨(size_byte .jmp).symm, Nat.le_refl _⟩
theorem jeq (opA : Byte) : Statement (.jeq opA) := ⟨(size_byte .jeq).symm, Nat.le_refl _⟩
theorem jne (opA : Byte) : Statement (.jne opA) := ⟨(size_byte .jne).symm, Nat.le_refl _⟩

end Sys2Proof.Laws.EncodedLength
end

