-- ==== Sys2Proof/Laws/Safety.lean ====
section
/-!
SUPPORT. The status, the fault record and the invariant's clause about them, by run status.
-/

namespace Sys2Proof.Machine

/-- The record exists exactly while the status is Faulted (R30). -/
@[simp] theorem State.faultRecord_eq_some (s : State) (r : FaultRecord) :
    s.faultRecord = some r ↔ s.status = .faulted r := by
  cases h : s.status <;> simp [State.faultRecord, h]

/-- The invariant's status clause says nothing of a running machine. -/
theorem State.statusOk_running (s : State) (h : s.status = .running) : s.statusOk := by
  simp [State.statusOk, h]

/-- The invariant's status clause of a halted machine. -/
theorem State.statusOk_halted (s : State) (h : s.status = .halted) :
    s.statusOk ↔ s.ir = Opcode.hlt.byte ∧ 1 ≤ s.pc.toNat ∧ s.pc.toNat ≤ 256 := by
  simp [State.statusOk, h]

/-- The invariant's status clause of a faulted machine. -/
theorem State.statusOk_faulted (s : State) (r : FaultRecord) (h : s.status = .faulted r) :
    s.statusOk ↔ r.pc = s.pc ∧ r.legal s.ir := by
  constructor
  · exact fun ⟨_, hr⟩ => hr r (by simp [h])
  · refine fun hr => ⟨by simp [h], fun q hq => ?_⟩
    have hstatus := (State.faultRecord_eq_some s q).1 hq
    obtain rfl : r = q := by simpa [h] using hstatus
    exact hr

end Sys2Proof.Machine
end

