-- ==== Sys2Proof/Laws/WellFormed.lean ====
section
/-!
SUPPORT. The check on a register operand as arithmetic.
-/

namespace Sys2Proof

@[simp] theorem registerOperandOk_iff (op : Byte) : registerOperandOk op = true ↔ op.toNat < 8 := by
  simp [registerOperandOk]

@[simp] theorem registerOperandOk_eq_false (op : Byte) : registerOperandOk op = false ↔ 8 ≤ op.toNat := by
  simp [registerOperandOk]

end Sys2Proof
end

