-- ==== Sys2Proof/Machine/Assembler.lean ====
section
/-!
DEFINITION. The assembler form of an instruction (R73, R74): text only, no part of a step.
-/

namespace Sys2Proof

/-- A register's assembler name (R20, R73). -/
def registerName (op : Byte) : String := "R" ++ toString op.toNat

/-- An instruction in the source's written form: the mnemonic, then its operands separated by a comma, the
first one `op_a`; registers as `R0` to `R7`, immediates in decimal (R73, R74).  An operand byte of 8 or more prints as its
number after `R` (DESIGN CHOICE, safe: log entry 21). -/
def Instr.text : Instr → String
  | .hlt => "HLT"
  | .ldi a v => "LDI " ++ registerName a ++ "," ++ toString v.toNat
  | .prn a => "PRN " ++ registerName a
  | .mul a b => "MUL " ++ registerName a ++ "," ++ registerName b
  | .add a b => "ADD " ++ registerName a ++ "," ++ registerName b
  | .push a => "PUSH " ++ registerName a
  | .pop a => "POP " ++ registerName a
  | .call a => "CALL " ++ registerName a
  | .ret => "RET"
  | .cmp a b => "CMP " ++ registerName a ++ "," ++ registerName b
  | .jmp a => "JMP " ++ registerName a
  | .jeq a => "JEQ " ++ registerName a
  | .jne a => "JNE " ++ registerName a

/-- Instructions on one line are separated by `;` (R73). -/
def programText (is : List Instr) : String := String.intercalate "; " (is.map Instr.text)

end Sys2Proof
end

