-- ==== Sys2Proof/Tests/Slice0.lean ====
section
/-!
SUPPORT. Tests.  Expected results come from the spec: its encodings (30_encoding.md), its test vectors
(95_test_vectors.md, tables T1 to T5 and programs P1 to P8) and the examples of its instruction rules.  After the
tests, one witness for each statement with hypotheses: a concrete state and operands that meet all of them.
-/

namespace Sys2Proof.Tests

open Sys2Proof Sys2Proof.Machine

/-! ### Helpers -/

/-- The next state of an outcome. -/
def nextOf : Result → Option State
  | .next t => some t
  | .fault _ => none
  | .refused _ => none

theorem eq_next (r : Result) (t : State) (h : nextOf r = some t) : r = .next t := by
  cases r <;> simp_all [nextOf]

/-- The reset state with `x[i]` set. -/
def withRegs (rs : List (RegIdx × Byte)) : State :=
  rs.foldl (fun s r => s.setReg r.1 r.2) State.reset

/-- A state with bytes placed at an address and the PC there. -/
def runAt (s : State) (pc : PcWord) (bytes : List Byte) : State :=
  { s with pc := pc, mem := Memory.pokeList pc.toNat bytes s.mem }

/-- A state with one cell set. -/
def withCell (s : State) (a : Nat) (v : Byte) : State := { s with mem := s.mem.poke a v }

/-- A state with FL set. -/
def withFlags (s : State) (l g e : Bool) : State := { s with flags := ⟨l, g, e⟩ }

/-- The state a step answers; the state itself should it answer none. -/
def after (s : State) : State := (nextOf (step s)).getD s

/-! ### Well-formedness: an ill-formed term for each check -/

theorem test_wf_refuses_first_operand : Instr.wellFormed (.ldi 8 1) = false := by decide
theorem test_wf_refuses_second_operand : Instr.wellFormed (.mul 0 9) = false := by decide
theorem test_wf_refuses_single_operand : Instr.wellFormed (.push 0xFF) = false := by decide
theorem test_wf_immediate_is_no_register : Instr.wellFormed (.ldi 7 0xFF) = true := by decide

/-! ### Decoding: words written out from R62's table, bit by bit -/

theorem test_decode_hlt : decodeTableWord 8 0b00000001 = some .hlt := by decide
theorem test_decode_ldi : decodeTableWord 24 0b11111111_00000011_10000010 = some (.ldi 3 255) := by decide
theorem test_decode_prn : decodeTableWord 16 0b00000111_01000111 = some (.prn 7) := by decide
theorem test_decode_mul : decodeTableWord 24 0b00000001_00000010_10100010 = some (.mul 2 1) := by decide
theorem test_decode_add : decodeTableWord 24 0b00000001_00000010_10100000 = some (.add 2 1) := by decide
theorem test_decode_push : decodeTableWord 16 0b00000101_01000101 = some (.push 5) := by decide
theorem test_decode_pop : decodeTableWord 16 0b00000110_01000110 = some (.pop 6) := by decide
theorem test_decode_call : decodeTableWord 16 0b00000001_01010000 = some (.call 1) := by decide
theorem test_decode_ret : decodeTableWord 8 0b00010001 = some .ret := by decide
theorem test_decode_cmp : decodeTableWord 24 0b00000001_00000010_10100111 = some (.cmp 2 1) := by decide
theorem test_decode_jmp : decodeTableWord 16 0b00000010_01010100 = some (.jmp 2) := by decide
theorem test_decode_jeq : decodeTableWord 16 0b00000010_01010101 = some (.jeq 2) := by decide
theorem test_decode_jne : decodeTableWord 16 0b00000011_01010110 = some (.jne 3) := by decide

/-- Operand bits the table leaves out are 0. -/
theorem test_decode_short_word : decodeTableWord 8 0x82 = some (.ldi 0 0) := by decide

/-- Table T1's illegal rows are rejected by name. -/
theorem test_decode_illegal :
    [0x00, 0xC0, 0xFF, 0x83, 0x81, 0xE2, 0xB0].all (fun b => opcodeOf b == none) = true := by decide

theorem test_decode_rejects_by_name :
    decode [0x83, 0, 0] = .error (.unimplementedOpcode 0x83) ∧ decode [0x82, 0] = .error (.missingByte 2) ∧
      decode [] = .error (.missingByte 0) := ⟨rfl, rfl, rfl⟩

/-- R67: 243 illegal values. -/
theorem test_illegal_count :
    ((List.range 256).filter (fun n => opcodeOf (BitVec.ofNat 8 n) == none)).length = 243 := by
  decide +kernel

/-- Table T1's size and setsPC columns. -/
theorem test_decoder_outputs :
    [0x01, 0x82, 0x47, 0x50, 0x11, 0xC0, 0xFF].map (fun b => (size b, setsPC b)) =
      [(1, false), (3, false), (2, false), (2, true), (1, true), (4, false), (4, true)] := by decide

/-! ### Assembler text (R73's own example) -/

theorem test_program_text :
    programText [.ldi 0 8, .ldi 1 9, .mul 0 1, .prn 0, .hlt] =
      "LDI R0,8; LDI R1,9; MUL R0,R1; PRN R0; HLT" := by decide

/-! ### One step, tables T2 to T5 -/

/-- T2 row 12. -/
theorem test_hlt_at_last_cell :
    nextOf (step (runAt State.reset 255 [0x01])) =
      some { runAt State.reset 255 [0x01] with ir := 0x01, pc := 256, status := .halted } := by decide

/-- T2 row 2: LDI may write SP. -/
theorem test_ldi_sp : (after (runAt State.reset 0 [0x82, 7, 16])).reg 7 = 0x10 := by decide

/-- T2 row 5: the memory fault comes before the register check. -/
theorem test_ldi_memory_fault_first :
    (after (runAt State.reset 254 [0x82, 9])).status = .faulted ⟨.memoryFault, 254, 256⟩ := by decide

/-- T2 row 8. -/
theorem test_prn_sp : (after (runAt State.reset 0 [0x47, 7])).output = [244] := by decide

/-- T2 row 9. -/
theorem test_prn_bad_index :
    (after (runAt State.reset 0 [0x47, 8])).output = [] ∧
      (after (runAt State.reset 0 [0x47, 8])).status = .faulted ⟨.registerIndexFault, 0, 8⟩ := by decide

/-- T3: 13 * 20 = 260. -/
theorem test_mul_wraps :
    (after (runAt (withRegs [(0, 13), (1, 20)]) 0 [0xA2, 0, 1])).reg 0 = 4 := by decide

/-- T3: `MUL R0,R0` with 15. -/
theorem test_mul_same_register : (after (runAt (withRegs [(0, 15)]) 0 [0xA2, 0, 0])).reg 0 = 225 := by decide

/-- T3: 200 + 100, FL untouched. -/
theorem test_add_wraps :
    (after (runAt (withFlags (withRegs [(0, 200), (1, 100)]) true false false) 0 [0xA0, 0, 1])).reg 0 = 44 ∧
      (after (runAt (withFlags (withRegs [(0, 200), (1, 100)]) true false false) 0 [0xA0, 0, 1])).flags.bits
        = 0b100 := by decide

/-- T3: `ADD R9,R10` reports op_a. -/
theorem test_add_bad_index_order :
    (after (runAt State.reset 0 [0xA0, 9, 10])).status = .faulted ⟨.registerIndexFault, 0, 9⟩ := by decide

/-- T3: 0x80 > 0x7F, unsigned, and the earlier flags are replaced. -/
theorem test_cmp_unsigned :
    (after (runAt (withFlags (withRegs [(0, 0x80), (1, 0x7F)]) false false true) 0 [0xA7, 0, 1])).flags.bits
      = 0b010 := by decide

theorem test_cmp_less :
    (after (runAt (withRegs [(0, 10), (1, 20)]) 0 [0xA7, 0, 1])).flags.bits = 0b100 := by decide

/-- T4 row 3: `PUSH R7` stores the SP after the decrement. -/
theorem test_push_sp :
    (after (runAt State.reset 0 [0x45, 7])).reg 7 = 0xF3 ∧
      (after (runAt State.reset 0 [0x45, 7])).memRead 0xF3 = some 0xF3 := by decide

/-- T4 row 2. -/
theorem test_push_wraps :
    (after (runAt (withRegs [(7, 0), (0, 5)]) 4 [0x45, 0])).memRead 0xFF = some 5 := by decide

/-- T4 row 6: `POP R7` increments the loaded value. -/
theorem test_pop_sp :
    (after (runAt (withCell (withRegs [(7, 0xF3)]) 0xF3 0x10) 0 [0x46, 7])).reg 7 = 0x11 := by decide

/-- T4 row 5. -/
theorem test_pop_wraps :
    (after (runAt (withCell (withRegs [(7, 0xFF)]) 0xFF 9) 0 [0x46, 1])).reg 1 = 9 ∧
      (after (runAt (withCell (withRegs [(7, 0xFF)]) 0xFF 9) 0 [0x46, 1])).reg 7 = 0 := by decide

/-- T5 row 11: the return address is stored modulo 256. -/
theorem test_call_at_254 :
    (after (runAt (withCell (withRegs [(1, 8)]) 0xF3 0x77) 254 [0x50, 1])).memRead 0xF3 = some 0 ∧
      (after (runAt (withRegs [(1, 8)]) 254 [0x50, 1])).pc = 8 := by decide

/-- T5 row 13: `CALL R7` jumps to the decremented SP. -/
theorem test_call_sp :
    (after (runAt State.reset 0 [0x50, 7])).pc = 0xF3 ∧
      (after (runAt State.reset 0 [0x50, 7])).memRead 0xF3 = some 2 := by decide

/-- T5 row 15. -/
theorem test_ret_wraps :
    (after (runAt (withCell (withRegs [(7, 0xFF)]) 0xFF 0x20) 0 [0x11])).pc = 0x20 ∧
      (after (runAt (withCell (withRegs [(7, 0xFF)]) 0xFF 0x20) 0 [0x11])).reg 7 = 0 := by decide

/-- T5 row 1. -/
theorem test_jmp : (after (runAt (withRegs [(2, 0x13)]) 0 [0x54, 2])).pc = 0x13 := by decide

/-- T5 rows 2 and 3. -/
theorem test_jeq :
    (after (runAt (withFlags (withRegs [(2, 19)]) false false true) 12 [0x55, 2])).pc = 19 ∧
      (after (runAt (withFlags (withRegs [(2, 19)]) true false false) 12 [0x55, 2])).pc = 14 := by decide

/-- T5 row 18: the index fault of a branch that would not be taken. -/
theorem test_jeq_bad_index :
    (after (runAt State.reset 0 [0x55, 8])).status = .faulted ⟨.registerIndexFault, 0, 8⟩ := by decide

/-- T5 rows 6 and 7. -/
theorem test_jne :
    (after (runAt (withFlags (withRegs [(3, 12)]) true false false) 20 [0x56, 3])).pc = 12 ∧
      (after (runAt (withFlags (withRegs [(3, 12)]) false false true) 20 [0x56, 3])).pc = 22 := by decide

/-- T5 row 9's second step: the fetch past the end of memory leaves IR unchanged. -/
theorem test_fetch_past_the_end :
    nextOf (step { State.reset with pc := 256, ir := 0x55 }) =
      some { State.reset with pc := 256, ir := 0x55, status := .faulted ⟨.memoryFault, 256, 256⟩ } := by decide

/-- Program P7. -/
theorem test_unrecognized_opcode :
    (launch [0xFF]).map (fun s => ((after s).status, (after s).ir, (after s).pc)) =
      some (.faulted ⟨.unimplementedOpcode, 0, 0xFF⟩, 0xFF, 0) := by decide

/-! ### The host's placing of a word, and the boundary -/

/-- The next step runs the placed word, also at the end of memory and after a stop. -/
theorem test_withFetchWord :
    (after (State.reset.withFetchWord 24 0x080082)).reg 0 = 8 ∧
      (after (({ State.reset with pc := 255, status := .halted } : State).withFetchWord 24 0x080082)).reg 0 = 8 ∧
      (after (({ State.reset with pc := 255 } : State).withFetchWord 8 0x01)).pc = 256 := by decide

theorem test_fault_ports :
    (after (runAt State.reset 0 [0x54, 8])).faultKindPort = 3 ∧
      (after (runAt State.reset 0 [0x54, 8])).faultInfoPort = 8 ∧
      (after (runAt State.reset 0 [0x54, 8])).haltedPort = false := by decide

theorem test_output_event :
    outputEvent (runAt State.reset 0 [0x47, 7]) (after (runAt State.reset 0 [0x47, 7])) = some 244 := by decide

/-! ### Witnesses: states and operands that meet the statements' hypotheses together -/

/-- An instruction of three bytes at 253, the last place it fits, with `x[7]` and `x[0]` as operands. -/
def fits : State := runAt (withRegs [(0, 200)]) 253 [0xA2, 7, 0]

theorem no_opcode_83 : ∀ op : Opcode, op.byte ≠ 0x83 := by intro op; cases op <;> decide

theorem witness_DecoderReadsSizeAndSetsPcFromTheOpcode : opcodeOf 0x82 = some .ldi := by decide

theorem witness_DispatchIsByExactByteEquality :
    (runAt State.reset 255 [0x83]).status = .running ∧
      (runAt State.reset 255 [0x83]).memRead (runAt State.reset 255 [0x83]).pc.toNat = some 0x83 ∧
      ∀ op : Opcode, op.byte ≠ 0x83 := ⟨rfl, by decide, no_opcode_83⟩

/-- The handler clause's premises: three bytes at 253, and one byte at 255. -/
theorem witness_DispatchIsByExactByteEquality_handler :
    fits.status = .running ∧ fits.memRead fits.pc.toNat = some 0xA2 ∧
      (∀ (k : Nat) (v : Byte), (Instr.mul 7 0).operands[k]? = some v →
        fits.memRead (fits.pc.toNat + 1 + k) = some v) ∧
      (runAt State.reset 255 [0x11]).memRead 255 = some 0x11 ∧ Instr.ret.operands = [] := by
  refine ⟨by decide, by decide, fun k v h => ?_, by decide, rfl⟩
  match k with
  | 0 => exact (show fits.memRead (fits.pc.toNat + 1 + 0) = some 7 by decide).trans h
  | 1 => exact (show fits.memRead (fits.pc.toNat + 1 + 1) = some 0 by decide).trans h
  | k + 2 => cases h

theorem witness_DecodedBytesAreTheEncoding : decode [0x82, 9, 1, 7] = .ok (.ldi 9 1, [7]) := rfl

theorem witness_StepRunsTheDecodedInstruction :
    fits.status = .running ∧
      ∀ (k : Nat) (b : Byte), (encode (.mul 7 0))[k]? = some b → fits.memRead (fits.pc.toNat + k) = some b := by
  refine ⟨by decide, fun k b h => ?_⟩
  match k with
  | 0 => exact (show fits.memRead (fits.pc.toNat + 0) = some 0xA2 by decide).trans h
  | 1 => exact (show fits.memRead (fits.pc.toNat + 1) = some 7 by decide).trans h
  | 2 => exact (show fits.memRead (fits.pc.toNat + 2) = some 0 by decide).trans h
  | k + 3 => cases h

/-- The three fetch clauses: past the end, an illegal byte at the last cell, and a legal one. -/
theorem witness_StepRaisesTheFirstFaultInOrder_fetch :
    256 ≤ ({ State.reset with pc := 256 } : State).pc.toNat ∧
      (runAt State.reset 255 [0x83]).memRead 255 = some 0x83 ∧ opcodeOf 0x83 = none ∧
      fits.memRead fits.pc.toNat = some Opcode.mul.byte := by decide

/-- The operand-read clauses: sizes 2 and 3 at 255, size 3 at 254. -/
theorem witness_StepRaisesTheFirstFaultInOrder_operands :
    2 ≤ size Opcode.push.byte ∧ (runAt State.reset 255 [0x45]).memRead 255 = some Opcode.push.byte ∧
      2 ≤ size Opcode.ldi.byte ∧ (runAt State.reset 255 [0x82]).memRead 255 = some Opcode.ldi.byte ∧
      size Opcode.ldi.byte = 3 ∧ (runAt State.reset 254 [0x82]).memRead 254 = some Opcode.ldi.byte := by decide

/-- The index clauses, at the last place the instruction fits: `op_a` of 8, `op_b` of 8 after `op_a` of 7, and
neither. -/
theorem witness_StepRaisesTheFirstFaultInOrder_indexes :
    fits.pc.toNat + size Opcode.mul.byte ≤ 256 ∧
      (runAt State.reset 253 [0xA2, 8, 0]).memRead (253 + 1) = some 8 ∧
      (runAt State.reset 253 [0xA2, 7, 8]).memRead (253 + 1) = some 7 ∧
      (runAt State.reset 253 [0xA2, 7, 8]).memRead (253 + 2) = some 8 ∧
      fits.memRead (fits.pc.toNat + 1) = some 7 ∧ fits.memRead (fits.pc.toNat + 2) = some 0 ∧
      Opcode.mul ∈ [Opcode.mul, .add, .cmp] := by decide

theorem witness_IllegalByteRaisesUnimplementedOpcode :
    (runAt State.reset 0 [0x83]).status = .running ∧
      (runAt State.reset 0 [0x83]).memRead (runAt State.reset 0 [0x83]).pc.toNat = some 0x83 ∧
      ∀ op : Opcode, op.byte ≠ 0x83 := ⟨rfl, by decide, no_opcode_83⟩

theorem witness_StoppedStatusIsTerminal :
    (after (runAt State.reset 0 [0x01])).status = .halted ∧
      (after State.reset).status = .faulted ⟨.unimplementedOpcode, 0, 0⟩ := by decide

theorem witness_FaultIsPrecise :
    (runAt State.reset 255 [0x45]).status = .running ∧
      step (runAt State.reset 255 [0x45]) = .next (after (runAt State.reset 255 [0x45])) ∧
      (after (runAt State.reset 255 [0x45])).status = .faulted ⟨.memoryFault, 255, 256⟩ :=
  ⟨rfl, eq_next _ _ (by decide), by decide⟩

theorem witness_IrHoldsTheLastFetchedByte :
    fits.status = .running ∧ step fits = .next (after fits) ∧ ∃ t, exec (.mul 7 0) fits = .next t :=
  ⟨by decide, eq_next _ _ (by decide), _, rfl⟩

theorem witness_OnlyHltHalts :
    (runAt State.reset 255 [0x01]).status = .running ∧
      step (runAt State.reset 255 [0x01]) = .next (after (runAt State.reset 255 [0x01])) ∧
      (runAt State.reset 255 [0x01]).memRead (runAt State.reset 255 [0x01]).pc.toNat = some 0x01 :=
  ⟨rfl, eq_next _ _ (by decide), by decide⟩

/-- The boundary addresses 255, 256 and 511. -/
theorem witness_MemReadNeverClampsOrWraps :
    State.reset.memRead 255 = some (State.reset.mem.peek 255) ∧ State.reset.memRead 256 = none ∧
      State.reset.memRead 511 = none := by decide

theorem witness_MemWriteChangesOneCellOrFaults :
    State.reset.mem.wf ∧ (State.reset.memWrite 255 256).isSome = true ∧ State.reset.memWrite 256 1 = none ∧
      State.reset.memWrite 511 1 = none := by decide

theorem witness_MemoriesThatReadAlikeAreEqual :
    (Memory.poke 3 1 (Memory.poke 255 2 [])).wf ∧ (Memory.poke 255 2 (Memory.poke 3 1 [])).wf ∧
      ∀ a, a < 256 → (Memory.poke 3 1 (Memory.poke 255 2 [])).peek a =
        (Memory.poke 255 2 (Memory.poke 3 1 [])).peek a :=
  ⟨by decide, by decide, fun a _ => by
    rw [show Memory.poke 3 1 (Memory.poke 255 2 []) = Memory.poke 255 2 (Memory.poke 3 1 []) by decide]⟩

/-- PUSH R0 at 0 with SP 3 stores HLT at 2, the next instruction. -/
def selfModifying : State := runAt (withRegs [(7, 3), (0, 0x01)]) 0 [0x45, 0]

/-- The state an instruction leaves; the state itself should it leave none. -/
def afterExec (i : Instr) (s : State) : State := (nextOf (exec i s)).getD s

/-- PUSH of another register and of R7 itself, with SP one above the next instruction. -/
theorem witness_StoredCodeIsFetchedNext_push :
    selfModifying.mem.wf ∧ selfModifying.status = .running ∧ (0 : Byte).toNat = (0 : RegIdx).val ∧
      (7 : Byte).toNat = (7 : RegIdx).val ∧
      exec (.push 0) selfModifying = .next (afterExec (.push 0) selfModifying) ∧
      (selfModifying.reg 7 - 1).toNat = (afterExec (.push 0) selfModifying).pc.toNat ∧
      exec (.push 7) selfModifying = .next (afterExec (.push 7) selfModifying) ∧
      (selfModifying.reg 7 - 1).toNat = (afterExec (.push 7) selfModifying).pc.toNat ∧
      step (afterExec (.push 7) selfModifying) = .next (after (afterExec (.push 7) selfModifying)) ∧
      step (afterExec (.push 0) selfModifying) = .next (after (afterExec (.push 0) selfModifying)) :=
  ⟨by decide, by decide, rfl, rfl, eq_next _ _ (by decide), by decide, eq_next _ _ (by decide), by decide,
    eq_next _ _ (by decide), eq_next _ _ (by decide)⟩

/-- `CALL R7`, which jumps to the cell that holds its return address, and a CALL of another register that holds the
decremented SP. -/
theorem witness_StoredCodeIsFetchedNext_call :
    (withRegs [(0, 0xF3)]).mem.wf ∧ (withRegs [(0, 0xF3)]).status = .running ∧
      exec (.call 7) (withRegs [(0, 0xF3)]) = .next (afterExec (.call 7) (withRegs [(0, 0xF3)])) ∧
      ((withRegs [(0, 0xF3)]).reg 7 - 1).toNat = (afterExec (.call 7) (withRegs [(0, 0xF3)])).pc.toNat ∧
      step (afterExec (.call 7) (withRegs [(0, 0xF3)])) =
        .next (after (afterExec (.call 7) (withRegs [(0, 0xF3)]))) ∧
      exec (.call 0) (withRegs [(0, 0xF3)]) = .next (afterExec (.call 0) (withRegs [(0, 0xF3)])) ∧
      ((withRegs [(0, 0xF3)]).reg 7 - 1).toNat = (afterExec (.call 0) (withRegs [(0, 0xF3)])).pc.toNat ∧
      step (afterExec (.call 0) (withRegs [(0, 0xF3)])) =
        .next (after (afterExec (.call 0) (withRegs [(0, 0xF3)]))) :=
  ⟨by decide, by decide, eq_next _ _ (by decide), by decide, eq_next _ _ (by decide), eq_next _ _ (by decide),
    by decide, eq_next _ _ (by decide)⟩

/-- Operands of the instruction statements at their bounds: 7 and 0 name registers, 8 and 255 do not; the opcode byte
at 254 and 255 leaves no operand byte. -/
theorem witness_register_operands :
    (7 : Byte).toNat = (7 : RegIdx).val ∧ (0 : Byte).toNat = (0 : RegIdx).val ∧ 8 ≤ (8 : Byte).toNat ∧
      8 ≤ (255 : Byte).toNat ∧ (7 : Byte).toNat < 8 := by decide

theorem witness_operand_reads :
    [Opcode.ldi, .mul, .add, .cmp].all (fun op =>
      (runAt State.reset 254 [op.byte]).memRead 254 == some op.byte &&
      (runAt State.reset 255 [op.byte]).memRead 255 == some op.byte) = true ∧
    [Opcode.prn, .push, .pop, .call, .jmp, .jeq, .jne].all (fun op =>
      (runAt State.reset 255 [op.byte]).memRead 255 == some op.byte) = true ∧
    ∀ op : Opcode, (runAt State.reset 254 [op.byte]).status = .running :=
  ⟨by decide, by decide, fun _ => rfl⟩

/-- The stack statements' states: a canonical memory, and a byte at SP, at SP's two ends. -/
theorem witness_stack_states :
    (withRegs [(7, 0)]).mem.wf ∧ (withCell (withRegs [(7, 0xFF)]) 0xFF 9).mem.wf ∧
      (withCell (withRegs [(7, 0xFF)]) 0xFF 9).memRead ((withCell (withRegs [(7, 0xFF)]) 0xFF 9).reg 7).toNat
        = some 9 ∧
      (withRegs [(7, 0)]).memRead ((withRegs [(7, 0)]).reg 7).toNat = some 0 := by decide

/-- HLT and RET run at the last address. -/
theorem witness_HltHaltsAndAdvances_and_RetJumpsToTheStackedByte :
    (runAt State.reset 255 [0x01]).memRead (runAt State.reset 255 [0x01]).pc.toNat = some 0x01 ∧
      (runAt State.reset 255 [0x11]).memRead (runAt State.reset 255 [0x11]).pc.toNat = some 0x11 ∧
      (runAt State.reset 255 [0x11]).memRead ((runAt State.reset 255 [0x11]).reg 7).toNat = some 0 ∧
      (runAt State.reset 255 [0x11]).status = .running := by decide

theorem witness_OnlyCmpWritesTheFlags :
    (∀ a b, Instr.add 0 1 ≠ .cmp a b) ∧ (∃ t, exec (.add 0 1) fits = .next t) ∧
      step (runAt State.reset 253 [0xA7, 0, 7]) = .next (after (runAt State.reset 253 [0xA7, 0, 7])) ∧
      (after (runAt State.reset 253 [0xA7, 0, 7])).flags ≠ (runAt State.reset 253 [0xA7, 0, 7]).flags :=
  ⟨fun _ _ h => (by cases h), ⟨_, rfl⟩, eq_next _ _ (by decide), by decide⟩

theorem witness_OnlyNamedRegistersChange :
    (∃ t, exec (.pop 1) fits = .next t) ∧ ¬mayWrite (.pop 1) 0 ∧ ¬mayWrite (.ldi 9 1) 7 ∧ ¬mayWrite .hlt 7 :=
  ⟨⟨_, rfl⟩, by simp [mayWrite, Config.spIndex], by simp [mayWrite], by simp [mayWrite]⟩

theorem witness_OnlyTheStackCellIsStored :
    selfModifying.mem.wf ∧ (∃ t, exec (.push 0) selfModifying = .next t) ∧
      storeAddress (.push 0) selfModifying = some 2 ∧
      (∃ t, exec (.pop 0) selfModifying = .next t) ∧ storeAddress (.pop 0) selfModifying = none :=
  ⟨by decide, ⟨_, rfl⟩, by decide, ⟨_, rfl⟩, rfl⟩

theorem witness_OnlyPrnEmits :
    (∀ a, Instr.hlt ≠ .prn a) ∧ (∃ t, exec .hlt fits = .next t) ∧
      step (runAt State.reset 254 [0x47, 7]) = .next (after (runAt State.reset 254 [0x47, 7])) ∧
      (after (runAt State.reset 254 [0x47, 7])).output = [244] :=
  ⟨fun _ h => (by cases h), ⟨_, rfl⟩, eq_next _ _ (by decide), by decide⟩

theorem witness_OnlyHltAndBadIndexesChangeTheStatus :
    Instr.wellFormed (.mul 7 0) = true ∧ Instr.mul 7 0 ≠ .hlt ∧ (∃ t, exec (.mul 7 0) fits = .next t) ∧
      Instr.wellFormed (.mul 7 8) = false :=
  ⟨by decide, fun h => (by cases h), ⟨_, rfl⟩, by decide⟩

theorem witness_PcIsWrittenInExactlyOneWay :
    Instr.wellFormed (.mul 7 0) = true ∧ (∃ t, exec (.mul 7 0) fits = .next t) ∧ setsPC Opcode.mul.byte = false ∧
      Instr.wellFormed (.jeq 7) = true ∧ (∃ t, exec (.jeq 7) fits = .next t) ∧ setsPC Opcode.jeq.byte = true :=
  ⟨by decide, ⟨_, rfl⟩, by decide, by decide, ⟨_, rfl⟩, by decide⟩

/-- A running state, a halted one and a faulted one that meet the invariant. -/
theorem witness_EveryStepKeepsTheInvariant :
    fits.Inv ∧ step fits = .next (after fits) ∧ (after (runAt State.reset 255 [0x01])).Inv ∧
      (after (runAt State.reset 254 [0x82, 9])).Inv :=
  ⟨by decide, eq_next _ _ (by decide), by decide, by decide⟩

theorem witness_CompletedStepLeavesPcAtMost256 :
    fits.status = .running ∧ step fits = .next (after fits) ∧ (∀ r, (after fits).status ≠ .faulted r) ∧
      (after fits).pc = 256 := by
  have h : (after fits).status = .running := by decide
  exact ⟨by decide, eq_next _ _ (by decide), fun r hr => (by rw [h] at hr; cases hr), by decide⟩

theorem witness_PushThenPopRestoresRegisterAndSp :
    (withRegs [(7, 0)]).mem.wf ∧ (7 : Byte).toNat = (7 : RegIdx).val ∧ (2 : Byte).toNat = (2 : RegIdx).val := by
  decide

/-- CALL R1 at 253 and at 254, and a RET with the stack as the CALL left it. -/
theorem witness_RetReturnsAfterItsCall :
    (runAt State.reset 253 [0x50, 1]).mem.wf ∧ (1 : Byte).toNat < 8 ∧
      (runAt State.reset 253 [0x50, 1]).pc.toNat ≤ 253 ∧ (runAt State.reset 254 [0x50, 1]).pc.toNat = 254 ∧
      (runAt State.reset 254 [0x50, 1]).mem.wf ∧
      (∃ t v, exec (.call 1) (runAt State.reset 253 [0x50, 1]) = .next t ∧ exec .ret t = .next v) ∧
      ∃ t v, exec (.call 1) (runAt State.reset 254 [0x50, 1]) = .next t ∧ exec .ret t = .next v :=
  ⟨by decide, by decide, by decide, by decide, by decide, ⟨_, _, rfl, rfl⟩, _, _, rfl, rfl⟩

/-- Equal registers and different ones. -/
theorem witness_ExactlyOneOfJeqAndJneIsTaken :
    (withRegs [(0, 5), (1, 5)]).reg 0 = (withRegs [(0, 5), (1, 5)]).reg 1 ∧ fits.reg 0 ≠ fits.reg 1 ∧
      ∃ c t u, exec (.cmp 0 1) fits = .next c ∧ exec (.jeq 7) c = .next t ∧ exec (.jne 7) c = .next u :=
  ⟨by decide, by decide, _, _, _, rfl, rfl, rfl⟩

theorem witness_PortsReportTheStatus :
    State.reset.status = .running ∧ (after (runAt State.reset 0 [0x01])).status = .halted ∧
      (after (runAt State.reset 0 [0x54, 8])).status = .faulted ⟨.registerIndexFault, 0, 8⟩ := by decide

/-- Images of 256 and of 257 bytes. -/
theorem witness_LaunchPlacesTheImageOverTheFill :
    (List.replicate 256 (1 : Byte)).length ≤ 256 ∧ 256 < (List.replicate 257 (1 : Byte)).length := by
  simp only [List.length_replicate]; decide

theorem witness_ResetAndLoadReachTheLaunchState : ([0x82, 0, 8] : List Byte).length ≤ 256 := by decide

/-- Both levels of `rst`, and a canonical memory in a reset that goes on. -/
theorem witness_LoaderWritesOnlyInReset :
    resetInput.rst = true ∧ ({ resetInput with rst := false } : Inputs).rst = false ∧
      (Block.mk true (withCell State.reset 255 9)).core.mem.wf ∧ (Block.mk false fits).rst = false := by
  decide

/-- R141 and R142 on one tick: the start of a reset fills memory, its continuation keeps it, and the loader's byte at
the last cell is written. -/
theorem test_reset_tick :
    Block.tick ⟨true, true, 255, 7⟩ ⟨false, withCell fits 3 9⟩ =
        .next ⟨true, { State.reset with mem := [(255, 7)] }⟩ ∧
      Block.tick ⟨true, true, 255, 7⟩ ⟨true, withCell State.reset 3 9⟩ =
        .next ⟨true, { State.reset with mem := [(3, 9), (255, 7)] }⟩ := ⟨rfl, rfl⟩

theorem witness_HaltedRunNeverFaults : HaltsCleanly (runAt State.reset 0 [0x01]) :=
  ⟨after (runAt State.reset 0 [0x01]), ⟨1, eq_next _ _ (by decide)⟩, by decide⟩

end Sys2Proof.Tests
end

section
/-!
PROOFS about the decoder's two outputs (R65): their arithmetic on every byte, and their values on the 13 opcodes,
read from `size_byte` and `setsPC_byte`.
-/

namespace Sys2Proof

/-- Bits 7:6 of a byte are its quotient by 64 (R65). -/
theorem size_eq_div (ir : Byte) : size ir = ir.toNat / 64 + 1 := by
  have hbits : (ir.extractLsb' 6 2).toNat = ir.toNat / 64 % 4 := by
    simp [BitVec.extractLsb'_toNat, Nat.shiftRight_eq_div_pow]
  have hlt : ir.toNat < 256 := ir.isLt
  rw [size, hbits]
  omega

/-- Bit 4 of a byte is the parity of its quotient by 16 (R65). -/
theorem setsPC_iff_div (ir : Byte) : setsPC ir = true ↔ ir.toNat / 16 % 2 = 1 := by
  simp [setsPC, BitVec.getLsbD, Nat.testBit_eq_decide_div_mod_eq]

/-- The size read from an opcode byte counts that byte and the instruction's operand bytes (R60, R65). -/
theorem size_opcode_byte (i : Instr) : size i.opcode.byte = 1 + i.operands.length := by
  rw [size_byte]
  cases i <;> rfl

/-- `setsPC_byte` as a list of the operations (R24, R63). -/
theorem setsPC_byte_iff_mem (op : Opcode) :
    setsPC op.byte = true ↔ op ∈ [Opcode.call, .ret, .jmp, .jeq, .jne] := by
  rw [setsPC_byte]
  cases op <;> decide

/-- No operation is longer than 3 bytes (R60). -/
theorem size_byte_le_three (op : Opcode) : size op.byte ≤ 3 := by
  rw [size_byte]
  cases op <;> decide

/-- Settles O2: arithmetic on the byte for every byte, the opcode table for the 13 operations. -/
theorem decoderReadsSizeAndSetsPcFromTheOpcode :
    Obligations.DecoderReadsSizeAndSetsPcFromTheOpcode := by
  refine ⟨fun ir => ⟨size_eq_div ir, setsPC_iff_div ir⟩,
    fun i => ⟨size_opcode_byte i, setsPC_byte_iff_mem i.opcode⟩, fun ir op hfound => ?_⟩
  have hbyte : op.byte = ir := byte_of_opcodeOf ir op hfound
  exact hbyte ▸ size_byte_le_three op

end Sys2Proof
end

section
/-!
PROOFS about FL (R94): what can end a meaning or a step is inverted once, and every instruction but CMP keeps FL.
-/

namespace Sys2Proof

/-- A decoded instruction is the one the fetched byte names (R70 steps (1) and (2)). -/
theorem decodeAt_ok_opcode (byteAt : Nat → Option Byte) (i : Instr) (h : decodeAt byteAt = .ok i) :
    byteAt 0 = some i.opcode.byte := by
  unfold decodeAt at h
  split at h
  · cases h
  next ir hfetch =>
    split at h
    · cases h
    next op hfound =>
      split at h
      · cases h
      next a _ =>
        split at h
        · cases h
        next b _ =>
          obtain rfl : op.assemble a b = i := Except.ok.inj h
          rw [hfetch, assemble_opcode, byte_of_opcodeOf ir op hfound]

namespace Machine

/-! ### What a step can do -/

/-- Everything a step can do: nothing once stopped (R136); otherwise the decoded instruction, or the fault that left
none (R70). -/
theorem step_cases (s t : State) (h : step s = .next t) :
    (s.status ≠ .running ∧ t = s) ∨
      (s.status = .running ∧ ∃ i, decodeAt s.fetchByte = .ok i ∧ exec i s.latchIr = .next t) ∨
      (s.status = .running ∧ ∃ e, decodeAt s.fetchByte = .error e ∧ t = s.latchIr.raiseDecodeError e) := by
  unfold step stepByStatus at h
  cases hstatus : s.status with
  | running =>
    simp only [hstatus, cycle] at h
    cases hdecode : decodeAt s.fetchByte with
    | ok i => exact .inr (.inl ⟨rfl, i, rfl, by simpa only [hdecode] using h⟩)
    | error e =>
      simp only [hdecode] at h
      exact .inr (.inr ⟨rfl, e, rfl, (Host.Outcome.next.inj h).symm⟩)
  | halted | faulted r =>
    simp only [hstatus] at h
    exact .inl ⟨nofun, (Host.Outcome.next.inj h).symm⟩

/-! ### The updates that leave FL alone -/

@[simp] theorem State.latchIr_flags (s : State) : s.latchIr.flags = s.flags := by
  unfold State.latchIr
  split <;> rfl

@[simp] theorem State.raiseDecodeError_flags (s : State) (e : DecodeError) :
    (s.raiseDecodeError e).flags = s.flags := by
  cases e <;> rfl

@[simp] theorem State.skipBranch_flags (s : State) (op : Opcode) : (s.skipBranch op).flags = s.flags := rfl

@[simp] theorem State.defaultAdvance_flags (s : State) (op : Opcode) : (s.defaultAdvance op).flags = s.flags := by
  rw [State.defaultAdvance_eq]
  cases op <;> rfl

/-! ### Meanings that keep FL -/

/-- A meaning, run on `s`, that answers only states with the FL of `s`. -/
def KeepsFlags (s : State) (r : Result) : Prop := ∀ t, r = .next t → t.flags = s.flags

theorem keepsFlags_next {s t : State} (h : t.flags = s.flags) : KeepsFlags s (.next t) := by
  rintro _ ⟨⟩
  exact h

theorem keepsFlags_retire {s u : State} (op : Opcode) (h : u.flags = s.flags) : KeepsFlags s (retire op u) :=
  keepsFlags_next ((u.defaultAdvance_flags op).trans h)

theorem keepsFlags_withReg {s : State} {op : Byte} {k : RegIdx → Result} (hk : ∀ r, KeepsFlags s (k r)) :
    KeepsFlags s (withReg op s k) := by
  obtain ⟨r, -, hgoes⟩ | ⟨-, hfault⟩ := withReg_cases op s k
  · exact hgoes ▸ hk r
  · exact hfault ▸ keepsFlags_next (s.raise_flags _ _)

theorem keepsFlags_withRegs {s : State} {opA opB : Byte} {k : RegIdx → RegIdx → Result}
    (hk : ∀ a b, KeepsFlags s (k a b)) : KeepsFlags s (withRegs opA opB s k) :=
  keepsFlags_withReg fun a => keepsFlags_withReg (hk a)

theorem keepsFlags_withLoad {s u : State} {b : Byte} {k : Byte → Result} (hk : ∀ v, KeepsFlags s (k v)) :
    KeepsFlags s (withLoad b.toNat u k) := by
  rw [withLoad_byte]
  exact hk _

theorem keepsFlags_withStore {s u : State} {b : Byte} {v : Nat} {k : State → Result}
    (hk : ∀ m, KeepsFlags s (k { u with mem := m })) : KeepsFlags s (withStore b.toNat v u k) := by
  rw [withStore_byte]
  exact hk _

/-- R94's frame: no instruction but CMP ends on an update that writes FL, and no fault does either. -/
theorem exec_keepsFlags (i : Instr) (s : State) (hcmp : ∀ a b, i ≠ .cmp a b) : KeepsFlags s (exec i s) := by
  cases i with
  | hlt => exact keepsFlags_retire .hlt s.halt_flags
  | ldi opA imm => exact keepsFlags_withReg fun a => keepsFlags_retire .ldi (s.setReg_flags a imm)
  | prn opA => exact keepsFlags_withReg fun a => keepsFlags_retire .prn (s.emit_flags _)
  | mul opA opB => exact keepsFlags_withRegs fun a b => keepsFlags_retire .mul (s.setReg_flags a _)
  | add opA opB => exact keepsFlags_withRegs fun a b => keepsFlags_retire .add (s.setReg_flags a _)
  | push opA => exact keepsFlags_withReg fun a => keepsFlags_withStore fun m => keepsFlags_retire .push rfl
  | pop opA => exact keepsFlags_withReg fun a => keepsFlags_withLoad fun v => keepsFlags_retire .pop rfl
  | call opA => exact keepsFlags_withReg fun a => keepsFlags_withStore fun m => keepsFlags_retire .call rfl
  | ret => exact keepsFlags_withLoad fun v => keepsFlags_retire .ret rfl
  | cmp opA opB => exact absurd rfl (hcmp opA opB)
  | jmp opA => exact keepsFlags_withReg fun a => keepsFlags_retire .jmp (s.setPc_flags _)
  | jeq opA | jne opA => exact keepsFlags_withReg fun a => keepsFlags_retire _ (by split <;> simp)

/-- Of the three things a step can do, only running CMP can change FL. -/
theorem cmp_fetched_of_step_flags_ne (s t : State) (hstep : step s = .next t) (hne : t.flags ≠ s.flags) :
    s.memRead s.pc.toNat = some Opcode.cmp.byte := by
  obtain ⟨-, rfl⟩ | ⟨-, i, hdecode, hexec⟩ | ⟨-, e, -, rfl⟩ := step_cases s t hstep
  · exact absurd rfl hne
  · have hfetch : s.memRead s.pc.toNat = some i.opcode.byte := decodeAt_ok_opcode _ i hdecode
    by_cases hcmp : ∃ a b, i = .cmp a b
    · obtain ⟨a, b, rfl⟩ := hcmp
      exact hfetch
    · have hkept : t.flags = s.latchIr.flags :=
        exec_keepsFlags i s.latchIr (fun a b hi => hcmp ⟨a, b, hi⟩) t hexec
      exact absurd (hkept.trans s.latchIr_flags) hne
  · exact absurd (by rw [State.raiseDecodeError_flags, State.latchIr_flags]) hne

end Machine

/-- Settles O32: the frame of `exec` over every instruction, and the step lemma that rests on it. -/
theorem onlyCmpWritesTheFlags : Obligations.OnlyCmpWritesTheFlags :=
  ⟨fun i s t hcmp hexec => Machine.exec_keepsFlags i s hcmp t hexec,
    Machine.cmp_fetched_of_step_flags_ne⟩

end Sys2Proof
end

section
/-!
PROOFS about decoding and encoding (R60 to R69): an instruction is decoded exactly where its encoding stands.
-/

namespace Sys2Proof

/-! ### The operands of an encoding -/

/-- An instruction is assembled from its own operand bytes, with anything where it has none. -/
theorem assemble_operands (i : Instr) :
    i.opcode.assemble (i.operands.getD 0 0) (i.operands.getD 1 0) = i := by
  cases i <;> rfl

theorem length_encode (i : Instr) : (encode i).length = size i.opcode.byte := by
  rw [size_opcode_byte, encode, List.length_cons, Nat.add_comm]

/-- The bytes of an assembled instruction: the opcode byte, then the operands the size allows (R60, R65). -/
theorem getElem?_encode_assemble {op : Opcode} {a b v : Byte} {k : Nat}
    (h : (encode (op.assemble a b))[k]? = some v) :
    (k = 0 ∧ op.byte = v) ∨ (k = 1 ∧ 2 ≤ size op.byte ∧ a = v) ∨ (k = 2 ∧ size op.byte = 3 ∧ b = v) := by
  rw [size_byte]
  match k with
  | 0 => cases op <;> simpa [encode, Opcode.assemble, Instr.opcode] using h
  | 1 | 2 => cases op <;> simp_all [encode, Opcode.assemble, Instr.operands]
  | k + 3 => cases op <;> simp [encode, Opcode.assemble, Instr.operands] at h

/-! ### Decoding -/

/-- Where an instruction's encoding stands, each operand read answers the operand, or 0 where there is none. -/
theorem readOperand_encoded {byteAt : Nat → Option Byte} {i : Instr}
    (h : ∀ k b, (encode i)[k]? = some b → byteAt k = some b) (k : Nat) :
    readOperand byteAt (size i.opcode.byte) (k + 1) = .ok (i.operands.getD k 0) := by
  rw [size_opcode_byte, List.getD_eq_getElem?_getD]
  cases hk : i.operands[k]? with
  | some b =>
    have hlt : k < i.operands.length := (List.getElem?_eq_some_iff.1 hk).1
    exact readOperand_present byteAt _ _ b (by omega) (h (k + 1) b hk)
  | none =>
    have hge : i.operands.length ≤ k := List.getElem?_eq_none_iff.1 hk
    exact readOperand_absent byteAt _ _ (by omega)

/-- An instruction is decoded where its encoding stands. -/
theorem decodeAt_encoded {byteAt : Nat → Option Byte} {i : Instr}
    (h : ∀ k b, (encode i)[k]? = some b → byteAt k = some b) : decodeAt byteAt = .ok i := by
  have hfetch : byteAt 0 = some i.opcode.byte := h 0 _ rfl
  simp only [decodeAt, hfetch, opcodeOf_byte, readOperand_encoded h, assemble_operands]

/-- An operand that is read and needed stands at its offset. -/
theorem byteAt_of_readOperand {byteAt : Nat → Option Byte} {n k : Nat} {b : Byte}
    (h : readOperand byteAt n k = .ok b) (hk : k < n) : byteAt k = some b := by
  obtain ⟨hge, -⟩ | ⟨c, -, hbyte, hread⟩ | ⟨-, -, hread⟩ := readOperand_cases byteAt n k
  · omega
  · rw [hbyte, Except.ok.inj (hread.symm.trans h)]
  · cases hread.symm.trans h

/-- What is decoded is an operation the table finds, assembled with the operands read (R70 steps (1) to (3a)). -/
theorem assembled_of_decodeAt {byteAt : Nat → Option Byte} {i : Instr} (h : decodeAt byteAt = .ok i) :
    ∃ a b, i = i.opcode.assemble a b ∧ readOperand byteAt (size i.opcode.byte) 1 = .ok a ∧
      readOperand byteAt (size i.opcode.byte) 2 = .ok b := by
  have hfetch := decodeAt_ok_opcode byteAt i h
  simp only [decodeAt, hfetch, opcodeOf_byte] at h
  cases ha : readOperand byteAt (size i.opcode.byte) 1 with
  | error e => simp [ha] at h
  | ok a =>
    cases hb : readOperand byteAt (size i.opcode.byte) 2 with
    | error e => simp [ha, hb] at h
    | ok b => exact ⟨a, b, by simpa [ha, hb, eq_comm] using h, rfl, rfl⟩

/-- The encoding of what is decoded stands there (R68: no don't-care bits). -/
theorem encoded_of_decodeAt {byteAt : Nat → Option Byte} {i : Instr} (h : decodeAt byteAt = .ok i)
    (k : Nat) (v : Byte) (hk : (encode i)[k]? = some v) : byteAt k = some v := by
  obtain ⟨a, b, hi, ha, hb⟩ := assembled_of_decodeAt h
  rw [hi] at hk
  obtain ⟨rfl, rfl⟩ | ⟨rfl, hsize, rfl⟩ | ⟨rfl, hsize, rfl⟩ := getElem?_encode_assemble hk
  · exact decodeAt_ok_opcode byteAt i h
  · exact byteAt_of_readOperand ha hsize
  · exact byteAt_of_readOperand hb (by omega)

/-! ### The statements -/

/-- Settles O5: the encoding stands at the head of the list, and what is dropped is its length. -/
theorem decodeOfEncodeIsTheInstruction : Obligations.DecodeOfEncodeIsTheInstruction := by
  intro i rest
  have hhead : decodeAt (fun k => (encode i ++ rest)[k]?) = .ok i :=
    decodeAt_encoded fun k b hk => by
      rw [List.getElem?_append_left (List.getElem?_eq_some_iff.1 hk).1, hk]
  simp only [decode, hhead, ← length_encode, List.drop_left]

/-- Settles O6: the encoding of what is decoded stands at the list's head, and the rest is what follows it. -/
theorem decodedBytesAreTheEncoding : Obligations.DecodedBytesAreTheEncoding := by
  intro bytes rest i h
  unfold decode at h
  cases hdecode : decodeAt (fun k => bytes[k]?) with
  | error e => simp [hdecode] at h
  | ok j =>
    obtain ⟨rfl, rfl⟩ : j = i ∧ bytes.drop (size j.opcode.byte) = rest := by simpa [hdecode] using h
    rw [← length_encode]
    refine List.ext_getElem? fun k => ?_
    by_cases hk : k < (encode j).length
    · rw [List.getElem?_append_left hk, List.getElem?_eq_getElem hk]
      exact encoded_of_decodeAt hdecode k _ (List.getElem?_eq_getElem hk)
    · rw [List.getElem?_append_right (by omega), List.getElem?_drop, Nat.add_sub_cancel' (by omega)]

/-- Settles O3: six words of R62's table and two illegal bytes, decoded. -/
theorem writtenOutWordsDecode : Obligations.WrittenOutWordsDecode := by
  unfold Obligations.WrittenOutWordsDecode
  decide

end Sys2Proof
end

section
/-!
PROOFS about the step (R70, R126): one lemma per end of a running cycle, and the inversion that collects them.
-/

namespace Sys2Proof.Machine

/-! ### Reading memory -/

theorem State.memRead_of_lt (s : State) {a : Nat} (h : a < 256) : s.memRead a = some (s.mem.peek a) := by
  simp [State.memRead, h]

theorem State.memRead_of_ge (s : State) {a : Nat} (h : 256 ≤ a) : s.memRead a = none := by
  simp [State.memRead, h]

/-- What MemRead answers exists. -/
theorem State.lt_of_memRead {s : State} {a : Nat} {v : Byte} (h : s.memRead a = some v) : a < 256 := by
  by_contra hge
  cases (s.memRead_of_ge (by omega)).symm.trans h

/-- Reading after one cell of a canonical memory was stored. -/
theorem State.memRead_of_poke {s t : State} {a : Nat} {v : Byte} (hwf : s.mem.wf) (ha : a < 256)
    (hmem : t.mem = s.mem.poke a v) (x : Nat) : t.memRead x = if x = a then some v else s.memRead x := by
  by_cases hx : x = a
  · simp [State.memRead, hmem, Memory.peek_poke _ _ _ _ hwf, hx, ha]
  · simp [State.memRead, hmem, Memory.peek_poke _ _ _ _ hwf, hx, Ne.symm hx]

/-! ### What a fault leaves -/

/-- A raised fault in the form the statements use. -/
theorem State.raise_eq_afterFault (s : State) (k : Fault) (n : BitVec 9) : s.raise k n = s.afterFault s.ir k n := rfl

/-- A fault raised once the fetch has latched the byte. -/
theorem State.raise_setIr (s : State) (b : Byte) (k : Fault) (n : BitVec 9) :
    (s.setIr b).raise k n = s.afterFault b k n := rfl

@[simp] theorem State.afterFault_status (s : State) (b : Byte) (k : Fault) (n : BitVec 9) :
    (s.afterFault b k n).status = .faulted ⟨k, s.pc, n⟩ := rfl

/-! ### The cycle's parts -/

/-- A result answers one state. -/
theorem next_unique {r : Result} {t u : State} (ht : r = .next t) (hu : r = .next u) : t = u :=
  Host.Outcome.next.inj (ht.symm.trans hu)

/-- A terminal status is left as it is (R29, R136). -/
theorem step_stopped {s : State} (h : s.status ≠ .running) : step s = .next s := by
  unfold step stepByStatus
  cases hs : s.status with
  | running => exact absurd hs h
  | halted | faulted r => rfl

theorem step_running {s : State} (h : s.status = .running) : step s = cycle s := by
  simp only [step, stepByStatus, h]

/-- The fetch latches the byte at the PC (R25). -/
theorem State.latchIr_of_fetch {s : State} {b : Byte} (h : s.memRead s.pc.toNat = some b) : s.latchIr = s.setIr b := by
  simp [State.latchIr, State.fetchByte, h]

/-- A fetch past the end of memory leaves IR unchanged (R25, D21). -/
theorem State.latchIr_past_end {s : State} (h : 256 ≤ s.pc.toNat) : s.latchIr = s := by
  simp [State.latchIr, State.fetchByte, s.memRead_of_ge h]

/-! ### The four ends of a running step, in R126's order -/

/-- Check 1: the fetch is past the end of memory. -/
theorem step_fetch_past_end {s : State} (hrun : s.status = .running) (hpc : 256 ≤ s.pc.toNat) :
    step s = .next (s.afterFault s.ir .memoryFault s.pc) := by
  have hdecode : decodeAt s.fetchByte = .error (.missingByte 0) := by
    simp [decodeAt, State.fetchByte, s.memRead_of_ge hpc]
  simp only [step_running hrun, cycle, hdecode, State.latchIr_past_end hpc, State.raiseDecodeError,
    State.raise_eq_afterFault, Nat.add_zero, BitVec.ofNat_toNat, BitVec.setWidth_eq]

/-- Check 2: the fetched byte is no operation's. -/
theorem step_illegal_byte {s : State} {ir : Byte} (hrun : s.status = .running)
    (hfetch : s.memRead s.pc.toNat = some ir) (hillegal : opcodeOf ir = none) :
    step s = .next (s.afterFault ir .unimplementedOpcode (ir.setWidth 9)) := by
  have hdecode : decodeAt s.fetchByte = .error (.unimplementedOpcode ir) := by
    simp [decodeAt, State.fetchByte, hfetch, hillegal]
  simp only [step_running hrun, cycle, hdecode, State.latchIr_of_fetch hfetch, State.raiseDecodeError,
    State.raise_setIr]

/-- Check 3: an operand byte would lie past the end, and the first that does lies at 256. -/
theorem step_operand_past_end {s : State} {op : Opcode} (hrun : s.status = .running)
    (hfetch : s.memRead s.pc.toNat = some op.byte) (hroom : 256 < s.pc.toNat + size op.byte) :
    step s = .next (s.afterFault op.byte .memoryFault 256) := by
  have hlt := State.lt_of_memRead hfetch
  have hsize := size_byte_le_three op
  obtain ⟨k, hk, hdecode⟩ : ∃ k, s.pc.toNat + k = 256 ∧ decodeAt s.fetchByte = .error (.missingByte k) := by
    by_cases hlast : s.pc.toNat = 255
    · refine ⟨1, by omega, ?_⟩
      have hfirst := readOperand_missing s.fetchByte (size op.byte) 1 (by omega) (s.memRead_of_ge (by omega))
      simp [decodeAt, State.fetchByte, hfetch, hfirst]
    · refine ⟨2, by omega, ?_⟩
      have hfirst := readOperand_present s.fetchByte (size op.byte) 1 _ (by omega) (s.memRead_of_lt (by omega))
      have hsecond := readOperand_missing s.fetchByte (size op.byte) 2 (by omega) (s.memRead_of_ge (by omega))
      simp [decodeAt, State.fetchByte, hfetch, hfirst, hsecond]
  simp only [step_running hrun, cycle, hdecode, State.latchIr_of_fetch hfetch, State.raiseDecodeError,
    State.setIr_pc, hk, State.raise_setIr]
  rfl

/-- All bytes are there: the step is `exec` of the instruction they encode. -/
theorem step_encoded {s : State} {i : Instr} (hrun : s.status = .running)
    (h : ∀ k b, (encode i)[k]? = some b → s.memRead (s.pc.toNat + k) = some b) :
    step s = exec i (s.setIr i.opcode.byte) := by
  have hdecode : decodeAt s.fetchByte = .ok i := decodeAt_encoded h
  simp only [step_running hrun, cycle, hdecode, State.latchIr_of_fetch (h 0 _ rfl)]

/-- The same with the opcode byte and the operands after it apart. -/
theorem step_fetched {s : State} {i : Instr} (hrun : s.status = .running)
    (hfetch : s.memRead s.pc.toNat = some i.opcode.byte)
    (hops : ∀ (k : Nat) (v : Byte), i.operands[k]? = some v → s.memRead (s.pc.toNat + 1 + k) = some v) :
    step s = exec i (s.setIr i.opcode.byte) := by
  refine step_encoded hrun fun k b hk => ?_
  match k with
  | 0 => exact hfetch.trans hk
  | k + 1 =>
    rw [← Nat.add_assoc, Nat.add_right_comm]
    exact hops k b hk

/-- The bytes from the PC on encode the instruction they assemble to, where it fits. -/
theorem State.encoded_assemble {s : State} {op : Opcode} {a b : Byte}
    (hfetch : s.memRead s.pc.toNat = some op.byte)
    (ha : 2 ≤ size op.byte → s.memRead (s.pc.toNat + 1) = some a)
    (hb : size op.byte = 3 → s.memRead (s.pc.toNat + 2) = some b) (k : Nat) (v : Byte)
    (hk : (encode (op.assemble a b))[k]? = some v) : s.memRead (s.pc.toNat + k) = some v := by
  obtain ⟨rfl, rfl⟩ | ⟨rfl, hsize, rfl⟩ | ⟨rfl, hsize, rfl⟩ := getElem?_encode_assemble hk
  · exact hfetch
  · exact ha hsize
  · exact hb hsize

/-- Everything a running step can do. -/
theorem step_running_cases {s : State} (hrun : s.status = .running) :
    (256 ≤ s.pc.toNat ∧ step s = .next (s.afterFault s.ir .memoryFault s.pc)) ∨
    (∃ ir, s.memRead s.pc.toNat = some ir ∧ opcodeOf ir = none ∧
      step s = .next (s.afterFault ir .unimplementedOpcode (ir.setWidth 9))) ∨
    (∃ op : Opcode, s.memRead s.pc.toNat = some op.byte ∧ 256 < s.pc.toNat + size op.byte ∧
      step s = .next (s.afterFault op.byte .memoryFault 256)) ∨
    (∃ i, s.memRead s.pc.toNat = some i.opcode.byte ∧
      (∀ k b, (encode i)[k]? = some b → s.memRead (s.pc.toNat + k) = some b) ∧
      step s = exec i (s.setIr i.opcode.byte)) := by
  by_cases hpc : 256 ≤ s.pc.toNat
  · exact .inl ⟨hpc, step_fetch_past_end hrun hpc⟩
  have hfetch := s.memRead_of_lt (a := s.pc.toNat) (by omega)
  cases hfound : opcodeOf (s.mem.peek s.pc.toNat) with
  | none => exact .inr (.inl ⟨_, hfetch, hfound, step_illegal_byte hrun hfetch hfound⟩)
  | some op =>
    rw [← byte_of_opcodeOf _ op hfound] at hfetch
    by_cases hroom : 256 < s.pc.toNat + size op.byte
    · exact .inr (.inr (.inl ⟨op, hfetch, hroom, step_operand_past_end hrun hfetch hroom⟩))
    · have hbytes := State.encoded_assemble hfetch
        (fun _ => s.memRead_of_lt (a := s.pc.toNat + 1) (by omega))
        (fun _ => s.memRead_of_lt (a := s.pc.toNat + 2) (by omega))
      exact .inr (.inr (.inr ⟨_, hbytes 0 _ rfl, hbytes, step_encoded hrun hbytes⟩))

/-! ### Statements -/

/-- A byte that is no operation's is not found in the table. -/
theorem opcodeOf_eq_none {b : Byte} (h : ∀ op : Opcode, op.byte ≠ b) : opcodeOf b = none := by
  cases hfound : opcodeOf b with
  | none => rfl
  | some op => exact absurd (byte_of_opcodeOf b op hfound) (h op)

/-- Settles O7: `step_encoded`. -/
theorem stepRunsTheDecodedInstruction : Obligations.StepRunsTheDecodedInstruction :=
  fun _ _ hrun h => step_encoded hrun h

/-- Settles O10: neither terminal status is Running. -/
theorem stoppedStatusIsTerminal : Obligations.StoppedStatusIsTerminal :=
  ⟨fun _ h => step_stopped (by simp [h]), fun _ _ h => step_stopped (by simp [h])⟩

/-- Settles O9: check 2 of the cycle, on any state and on the launch state of the one-byte image. -/
theorem illegalByteRaisesUnimplementedOpcode : Obligations.IllegalByteRaisesUnimplementedOpcode := by
  refine ⟨fun s b hrun hfetch hb => step_illegal_byte hrun hfetch (opcodeOf_eq_none hb), fun b hb => ?_⟩
  refine ⟨_, _, rfl, step_illegal_byte (ir := b) rfl ?_ (opcodeOf_eq_none hb), rfl⟩
  have hpeek := Memory.peek_poke 0 0 b [] Memory.wf_nil
  rw [if_pos rfl] at hpeek
  exact congrArg some hpeek

/-- Settles O15: MemRead's two cases, and the load that uses a missing byte. -/
theorem memReadNeverClampsOrWraps : Obligations.MemReadNeverClampsOrWraps :=
  fun s addr => ⟨s.memRead_of_lt, s.memRead_of_ge, fun hge _ k => by
    simp only [withLoad, s.memRead_of_ge hge, State.raise_eq_afterFault]⟩

end Sys2Proof.Machine
end

section
/-!
PROOFS about `exec`: the one state it answers for each instruction, collected in a relation, and the fields of that
state.
-/

namespace Sys2Proof.Machine

/-! ### The stack push -/

/-- The push PUSH and CALL share: SP one less, and a byte stored at the new SP (R100, R111). -/
def State.pushByte (s : State) (v : Byte) : State :=
  { s.setSp (s.sp - 1) with mem := s.mem.poke (s.sp - 1).toNat v }

theorem State.reg_pushByte (s : State) (v : Byte) (r : RegIdx) :
    (s.pushByte v).reg r = if r = 7 then s.sp - 1 else s.reg r := s.reg_setSp r _

/-- The pushed byte is read back, and every other cell is unchanged. -/
theorem State.memRead_pushByte (s : State) (v : Byte) (hwf : s.mem.wf) (x : Nat) :
    (s.pushByte v).memRead x = if x = (s.sp - 1).toNat then some v else s.memRead x :=
  State.memRead_of_poke hwf (s.sp - 1).isLt rfl x

/-! ### The index fault -/

/-- The first register operand that names no register (R126). -/
def badOperand (i : Instr) : Option Byte := i.registerOperands.find? fun op => decide (8 ≤ op.toNat)

theorem badOperand_first {i : Instr} {a : Byte} {rest : List Byte} (hops : i.registerOperands = a :: rest)
    (ha : 8 ≤ a.toNat) : badOperand i = some a := by
  simp [badOperand, hops, ha]

theorem badOperand_second {i : Instr} {a b : Byte} (hops : i.registerOperands = [a, b]) (ha : a.toNat < 8)
    (hb : 8 ≤ b.toNat) : badOperand i = some b := by
  simp [badOperand, hops, Nat.not_le.2 ha, hb]

/-- A bad operand is 8 or more (R64). -/
theorem badOperand_ge {i : Instr} {op : Byte} (h : badOperand i = some op) : 8 ≤ op.toNat := by
  simpa using List.find?_some h

theorem badOperand_eq_none_iff (i : Instr) : badOperand i = none ↔ i.wellFormed = true := by
  simp [badOperand, Instr.wellFormed]

/-- The index fault of any instruction: its first bad operand is recorded (R122, D8). -/
theorem exec_badOperand {i : Instr} {op : Byte} (s : State) (h : badOperand i = some op) :
    exec i s = .next (s.afterFault s.ir .registerIndexFault (op.setWidth 9)) := by
  have hge := badOperand_ge h
  cases i with
  | hlt | ret => cases h
  | ldi opA _ | prn opA | push opA | pop opA | call opA | jmp opA | jeq opA | jne opA =>
    obtain ⟨-, rfl⟩ : 8 ≤ opA.toNat ∧ opA = op := by simpa [badOperand, Instr.registerOperands] using h
    exact withReg_of_ge _ s _ hge
  | mul opA opB | add opA opB | cmp opA opB =>
    by_cases ha : 8 ≤ opA.toNat
    · obtain rfl : opA = op := Option.some.inj ((badOperand_first rfl ha).symm.trans h)
      exact withReg_of_ge _ s _ hge
    · obtain ⟨-, rfl⟩ : 8 ≤ opB.toNat ∧ opB = op := by
        simpa [badOperand, Instr.registerOperands, ha] using h
      exact (withReg_of_lt opA ⟨opA.toNat, by omega⟩ s _ rfl).trans (withReg_of_ge _ s _ hge)

/-! ### Everything `exec` can do -/

/-- `Effect i s t`: the instruction `i`, run on `s`, answers `t` (`exec_eq_next_iff`). -/
inductive Effect : Instr → State → State → Prop
  | indexFault {i s op} : badOperand i = some op →
      Effect i s (s.afterFault s.ir .registerIndexFault (op.setWidth 9))
  | hlt {s} : Effect .hlt s (s.halt.setPc (s.pc + 1))
  | ldi {s opA imm} {a : RegIdx} : opA.toNat = a.val →
      Effect (.ldi opA imm) s ((s.setReg a imm).setPc (s.pc + 3))
  | prn {s opA} {a : RegIdx} : opA.toNat = a.val →
      Effect (.prn opA) s ((s.emit (s.reg a)).setPc (s.pc + 2))
  | mul {s opA opB} {a b : RegIdx} : opA.toNat = a.val → opB.toNat = b.val →
      Effect (.mul opA opB) s ((s.setReg a (aluMul (s.reg a) (s.reg b))).setPc (s.pc + 3))
  | add {s opA opB} {a b : RegIdx} : opA.toNat = a.val → opB.toNat = b.val →
      Effect (.add opA opB) s ((s.setReg a (aluAdd (s.reg a) (s.reg b))).setPc (s.pc + 3))
  | push {s opA} {a : RegIdx} : opA.toNat = a.val →
      Effect (.push opA) s ((s.pushByte ((s.setSp (s.sp - 1)).reg a)).setPc (s.pc + 2))
  | pop {s opA} {a : RegIdx} : opA.toNat = a.val →
      Effect (.pop opA) s (((s.setReg a (s.mem.peek s.sp.toNat)).setSp
        ((s.setReg a (s.mem.peek s.sp.toNat)).sp + 1)).setPc (s.pc + 2))
  | call {s opA} {a : RegIdx} : opA.toNat = a.val →
      Effect (.call opA) s ((s.pushByte (BitVec.ofNat 8 (s.pc.toNat + 2))).setPc
        (targetPc ((s.setSp (s.sp - 1)).reg a)))
  | ret {s} : Effect .ret s ((s.setSp (s.sp + 1)).setPc (targetPc (s.mem.peek s.sp.toNat)))
  | cmp {s opA opB} {a b : RegIdx} : opA.toNat = a.val → opB.toNat = b.val →
      Effect (.cmp opA opB) s ((s.setFlags (compareFlags (s.reg a) (s.reg b))).setPc (s.pc + 3))
  | jmp {s opA} {a : RegIdx} : opA.toNat = a.val → Effect (.jmp opA) s (s.setPc (targetPc (s.reg a)))
  | jeq {s opA} {a : RegIdx} : opA.toNat = a.val →
      Effect (.jeq opA) s (s.setPc (if s.flags.e then targetPc (s.reg a) else s.pc + 2))
  | jne {s opA} {a : RegIdx} : opA.toNat = a.val →
      Effect (.jne opA) s (s.setPc (if s.flags.e then s.pc + 2 else targetPc (s.reg a)))

/-- What the relation says is what `exec` answers: the operand checks pass, and a stack access at SP never faults
(R43). -/
theorem Effect.exec_eq {i : Instr} {s t : State} (h : Effect i s t) : exec i s = .next t := by
  cases h with
  | indexFault hbad => exact exec_badOperand s hbad
  | hlt => rfl
  | ldi ha | prn ha | jmp ha => exact withReg_of_lt _ _ s _ ha
  | mul ha hb | add ha hb | cmp ha hb => exact withRegs_of_lt _ _ _ _ s _ ha hb
  | push ha =>
    simp only [exec, execPush, withReg_of_lt _ _ s _ ha, withStore_byte, State.sp_setSp, BitVec.ofNat_toNat,
      BitVec.setWidth_eq]
    rfl
  | pop ha =>
    simp only [exec, execPop, withReg_of_lt _ _ s _ ha, withLoad_byte]
    rfl
  | call ha =>
    simp only [exec, execCall, withReg_of_lt _ _ s _ ha, withStore_byte, State.sp_setSp]
    rfl
  | ret =>
    simp only [exec, execRet, withLoad_byte]
    rfl
  | jeq ha | jne ha =>
    refine (withReg_of_lt _ _ s _ ha).trans ?_
    cases s.flags.e <;> rfl

/-- A register operand is good, or the instruction faults. -/
theorem Effect.exists_of_operand {i : Instr} {s : State} {op : Byte} {rest : List Byte}
    (hops : i.registerOperands = op :: rest) (hgood : ∀ a : RegIdx, op.toNat = a.val → ∃ t, Effect i s t) :
    ∃ t, Effect i s t := by
  by_cases h : op.toNat < 8
  · exact hgood ⟨op.toNat, h⟩ rfl
  · exact ⟨_, .indexFault (badOperand_first hops (by omega))⟩

/-- Two register operands are good, or the instruction faults. -/
theorem Effect.exists_of_operands {i : Instr} {s : State} {opA opB : Byte}
    (hops : i.registerOperands = [opA, opB])
    (hgood : ∀ a b : RegIdx, opA.toNat = a.val → opB.toNat = b.val → ∃ t, Effect i s t) : ∃ t, Effect i s t := by
  refine exists_of_operand hops fun a ha => ?_
  by_cases h : opB.toNat < 8
  · exact hgood a ⟨opB.toNat, h⟩ ha rfl
  · exact ⟨_, .indexFault (badOperand_second hops (ha ▸ a.isLt) (by omega))⟩

/-- Every instruction has an effect on every state. -/
theorem Effect.exists_next (i : Instr) (s : State) : ∃ t, Effect i s t := by
  cases i with
  | hlt => exact ⟨_, .hlt⟩
  | ldi opA imm => exact exists_of_operand rfl fun a ha => ⟨_, .ldi ha⟩
  | prn opA => exact exists_of_operand rfl fun a ha => ⟨_, .prn ha⟩
  | mul opA opB => exact exists_of_operands rfl fun a b ha hb => ⟨_, .mul ha hb⟩
  | add opA opB => exact exists_of_operands rfl fun a b ha hb => ⟨_, .add ha hb⟩
  | push opA => exact exists_of_operand rfl fun a ha => ⟨_, .push ha⟩
  | pop opA => exact exists_of_operand rfl fun a ha => ⟨_, .pop ha⟩
  | call opA => exact exists_of_operand rfl fun a ha => ⟨_, .call ha⟩
  | ret => exact ⟨_, .ret⟩
  | cmp opA opB => exact exists_of_operands rfl fun a b ha hb => ⟨_, .cmp ha hb⟩
  | jmp opA => exact exists_of_operand rfl fun a ha => ⟨_, .jmp ha⟩
  | jeq opA => exact exists_of_operand rfl fun a ha => ⟨_, .jeq ha⟩
  | jne opA => exact exists_of_operand rfl fun a ha => ⟨_, .jne ha⟩

/-- The inversion of `exec`: it answers exactly the relation's state. -/
theorem exec_eq_next_iff {i : Instr} {s t : State} : exec i s = .next t ↔ Effect i s t := by
  refine ⟨fun h => ?_, Effect.exec_eq⟩
  obtain ⟨u, hu⟩ := Effect.exists_next i s
  obtain rfl : u = t := next_unique hu.exec_eq h
  exact hu

/-! ### The fields of the state answered -/

namespace Effect

variable {i : Instr} {s t : State}

/-- IR is the fetch's alone (R25). -/
theorem ir_eq (h : Effect i s t) : t.ir = s.ir := by
  cases h <;> rfl

/-- A bad operand's fault, HLT, or an instruction that leaves the status (R124, R80). -/
theorem status_cases (h : Effect i s t) :
    (∃ op, badOperand i = some op ∧ t = s.afterFault s.ir .registerIndexFault (op.setWidth 9)) ∨
      (i = .hlt ∧ t = s.halt.setPc (s.pc + 1)) ∨ (i ≠ .hlt ∧ t.status = s.status) := by
  cases h with
  | indexFault hbad => exact .inl ⟨_, hbad, rfl⟩
  | hlt => exact .inr (.inl ⟨rfl, rfl⟩)
  | _ => exact .inr (.inr ⟨nofun, rfl⟩)

/-- Registers: the destination, and SP for the stack users (R21, R49). -/
theorem reg_eq (h : Effect i s t) {r : RegIdx} (hr : ¬mayWrite i r) : t.reg r = s.reg r := by
  cases h with
  | indexFault | hlt | prn | cmp | jmp | jeq | jne => rfl
  | ldi ha | mul ha _ | add ha _ => exact s.reg_setReg_other _ r _ fun h => hr (h ▸ ha)
  | push | call => exact (State.reg_setPc _ _ r).trans ((s.reg_pushByte _ r).trans (if_neg hr))
  | ret => exact (s.reg_setSp r _).trans (if_neg hr)
  | pop ha =>
    obtain ⟨hdest, hsp⟩ := not_or.1 hr
    exact ((State.reg_setSp _ r _).trans (if_neg hsp)).trans
      (s.reg_setReg_other _ r _ fun h => hdest (h ▸ ha))

/-- Memory: unchanged, or one byte stored at SP - 1 by PUSH or CALL (R43). -/
theorem mem_cases (h : Effect i s t) :
    t.mem = s.mem ∨
      (storeAddress i s = some (s.sp - 1).toNat ∧ ∃ v, t.mem = (s.pushByte v).mem) := by
  cases h with
  | push | call => exact .inr ⟨rfl, _, rfl⟩
  | _ => exact .inl rfl

/-- The canonical form of memory is kept. -/
theorem mem_wf (h : Effect i s t) (hwf : s.mem.wf) : t.mem.wf := by
  obtain hmem | ⟨-, v, hmem⟩ := h.mem_cases
  · rwa [hmem]
  · exact hmem ▸ Memory.wf_poke _ v s.mem hwf (s.sp - 1).isLt

/-- Output: unchanged, or one event by PRN (R82). -/
theorem output_cases (h : Effect i s t) :
    t.output = s.output ∨ ∃ (op : Byte) (a : RegIdx), i = .prn op ∧ op.toNat = a.val ∧
      t.output = s.output ++ [s.reg a] := by
  cases h with
  | prn ha => exact .inr ⟨_, _, rfl, ha, rfl⟩
  | _ => exact .inl rfl

/-- The PC: the instruction's size added, or a byte (R24); kept by a fault (R124). -/
theorem pc_cases (h : Effect i s t) (hgood : badOperand i = none) :
    (setsPC i.opcode.byte = false ∧ t.pc = s.pc + BitVec.ofNat 9 (encode i).length) ∨
      (setsPC i.opcode.byte = true ∧ ((∃ v : Byte, t.pc = v.setWidth 9) ∨
        ((∃ a, i = .jeq a ∨ i = .jne a) ∧ t.pc = s.pc + 2))) := by
  cases h with
  | indexFault hbad => cases hgood.symm.trans hbad
  | hlt | ldi | prn | mul | add | push | pop | cmp => exact .inl ⟨setsPC_byte _, rfl⟩
  | call | ret | jmp => exact .inr ⟨setsPC_byte _, .inl ⟨_, rfl⟩⟩
  | jeq | jne =>
    refine .inr ⟨setsPC_byte _, ?_⟩
    cases s.flags.e <;> simp [targetPc]

end Effect

end Sys2Proof.Machine
end

section
/-!
PROOFS about every instruction and every step: what they leave unchanged (R21, R24, R25, R32, R43), the faults
(R124, R126) and the invariant.
-/

namespace Sys2Proof.Machine

/-! ### Frames of `exec` -/

/-- Settles O33: `Effect.reg_eq`. -/
theorem onlyNamedRegistersChange : Obligations.OnlyNamedRegistersChange :=
  fun _ _ _ _ hexec hr => (exec_eq_next_iff.1 hexec).reg_eq hr

/-- Settles O34: the one stored cell is the pushed one. -/
theorem onlyTheStackCellIsStored : Obligations.OnlyTheStackCellIsStored := by
  intro i s t hwf hexec
  obtain hmem | ⟨haddr, v, hmem⟩ := (exec_eq_next_iff.1 hexec).mem_cases
  · exact ⟨fun _ _ x _ => State.memRead_congr t s hmem x, fun _ x => State.memRead_congr t s hmem x⟩
  · refine ⟨fun a ha x hx => ?_, fun hnone => by simp [haddr] at hnone⟩
    obtain rfl : (s.sp - 1).toNat = a := by simpa [haddr] using ha
    rw [State.memRead_congr t _ hmem x, s.memRead_pushByte v hwf, if_neg hx]

/-- Settles O36: `Effect.status_cases`, and the index fault of a bad operand. -/
theorem onlyHltAndBadIndexesChangeTheStatus : Obligations.OnlyHltAndBadIndexesChangeTheStatus := by
  refine ⟨fun i s t hgood hhlt hexec => ?_, fun i s hbad => ?_⟩
  · obtain ⟨op, hop, -⟩ | ⟨hi, -⟩ | ⟨-, hstatus⟩ := (exec_eq_next_iff.1 hexec).status_cases
    · cases ((badOperand_eq_none_iff i).2 hgood).symm.trans hop
    · exact absurd hi hhlt
    · exact hstatus
  · cases hop : badOperand i with
    | none => simp [(badOperand_eq_none_iff i).1 hop] at hbad
    | some op => exact ⟨op, hop, exec_badOperand s hop⟩

/-- Settles O37: `Effect.pc_cases`. -/
theorem pcIsWrittenInExactlyOneWay : Obligations.PcIsWrittenInExactlyOneWay := by
  intro i s t hgood hexec
  obtain ⟨hsets, hpc⟩ | ⟨hsets, hpc⟩ :=
    (exec_eq_next_iff.1 hexec).pc_cases ((badOperand_eq_none_iff i).2 hgood)
  · exact ⟨fun _ => hpc, fun h => by simp [hsets] at h⟩
  · exact ⟨fun h => by simp [hsets] at h, fun _ => hpc⟩

/-! ### The fault records (R120 to R124) -/

theorem FaultRecord.legal_fetch_past_end {pc : PcWord} {ir : Byte} (hge : 256 ≤ pc.toNat) (hle : pc.toNat ≤ 258) :
    FaultRecord.legal ⟨.memoryFault, pc, pc⟩ ir :=
  ⟨fun _ => .inl ⟨hge, hle, rfl⟩, nofun, nofun⟩

theorem FaultRecord.legal_illegal_byte {pc : PcWord} {ir : Byte} (hpc : pc.toNat < 256) (hir : opcodeOf ir = none) :
    FaultRecord.legal ⟨.unimplementedOpcode, pc, ir.setWidth 9⟩ ir :=
  ⟨nofun, fun _ => ⟨hpc, BitVec.toNat_setWidth_of_le (by decide), hir⟩, nofun⟩

theorem FaultRecord.legal_operand_past_end {pc : PcWord} {op : Opcode} (hpc : pc.toNat < 256)
    (hroom : 256 < pc.toNat + size op.byte) : FaultRecord.legal ⟨.memoryFault, pc, 256⟩ op.byte := by
  have hsize := size_byte_le_three op
  exact ⟨fun _ => .inr ⟨by show pc.toNat = 254 ∨ pc.toNat = 255; omega, rfl, by simp⟩, nofun, nofun⟩

theorem FaultRecord.legal_bad_operand {pc : PcWord} {i : Instr} {op : Byte} (hbad : badOperand i = some op)
    (hroom : pc.toNat + size i.opcode.byte ≤ 256) :
    FaultRecord.legal ⟨.registerIndexFault, pc, op.setWidth 9⟩ i.opcode.byte := by
  have hinfo : (op.setWidth 9).toNat = op.toNat := BitVec.toNat_setWidth_of_le (by decide)
  have hsize : 2 ≤ size i.opcode.byte := by
    rw [size_byte]
    cases i with
    | hlt | ret => cases hbad
    | _ => simp [Instr.opcode]
  refine ⟨nofun, nofun, fun _ => ⟨?_, ?_, ?_, by simp⟩⟩
  · show pc.toNat < 255
    omega
  · exact (badOperand_ge hbad).trans_eq hinfo.symm
  · exact hinfo.trans_lt op.isLt

/-! ### What a running step leaves -/

/-- An encoding that stands in memory ends there. -/
theorem room_of_encoded {s : State} {i : Instr}
    (h : ∀ k b, (encode i)[k]? = some b → s.memRead (s.pc.toNat + k) = some b) :
    s.pc.toNat + size i.opcode.byte ≤ 256 := by
  rw [← length_encode]
  have hpos : 0 < (encode i).length := Nat.succ_pos _
  have hlast := State.lt_of_memRead (h _ _ (List.getElem?_eq_getElem (Nat.sub_lt hpos Nat.one_pos)))
  omega

/-- A running step faults with the whole state of R124 and a record of R120's kinds, or completes the instruction
whose byte it fetched. -/
theorem step_fault_or_completed {s t : State} (hrun : s.status = .running) (hstep : step s = .next t) :
    (∃ k n, t = s.afterFault ((s.memRead s.pc.toNat).getD s.ir) k n ∧
      (s.pc.toNat ≤ 258 → (FaultRecord.mk k s.pc n).legal ((s.memRead s.pc.toNat).getD s.ir))) ∨
    (∃ i, s.memRead s.pc.toNat = some i.opcode.byte ∧ s.pc.toNat + size i.opcode.byte ≤ 256 ∧
      badOperand i = none ∧ Effect i (s.setIr i.opcode.byte) t) := by
  obtain ⟨hpc, hnext⟩ | ⟨ir, hfetch, hillegal, hnext⟩ | ⟨op, hfetch, hroom, hnext⟩ | ⟨i, hfetch, hbytes, hnext⟩ :=
    step_running_cases hrun
  · obtain rfl := next_unique hstep hnext
    exact .inl ⟨_, _, by rw [s.memRead_of_ge hpc]; rfl, FaultRecord.legal_fetch_past_end hpc⟩
  · obtain rfl := next_unique hstep hnext
    have hpc := State.lt_of_memRead hfetch
    exact .inl ⟨_, _, by rw [hfetch]; rfl, fun _ => by rw [hfetch]; exact FaultRecord.legal_illegal_byte hpc hillegal⟩
  · obtain rfl := next_unique hstep hnext
    have hpc := State.lt_of_memRead hfetch
    exact .inl ⟨_, _, by rw [hfetch]; rfl, fun _ => by rw [hfetch]; exact FaultRecord.legal_operand_past_end hpc hroom⟩
  · have hroom := room_of_encoded hbytes
    have heffect : Effect i (s.setIr i.opcode.byte) t := exec_eq_next_iff.1 (hnext.symm.trans hstep)
    cases hbad : badOperand i with
    | none => exact .inr ⟨i, hfetch, hroom, hbad, heffect⟩
    | some op =>
      obtain rfl := next_unique heffect.exec_eq (exec_badOperand _ hbad)
      exact .inl ⟨_, _, by rw [hfetch]; rfl, fun _ => by rw [hfetch]; exact FaultRecord.legal_bad_operand hbad hroom⟩

/-- The status of a completed instruction: Halted by HLT, kept by every other. -/
theorem Effect.status_of_good {i : Instr} {s t : State} (h : Effect i s t) (hgood : badOperand i = none) :
    (i = .hlt ∧ t = s.halt.setPc (s.pc + 1)) ∨ (i ≠ .hlt ∧ t.status = s.status) := by
  obtain ⟨op, hbad, -⟩ | hdone := h.status_cases
  · cases hgood.symm.trans hbad
  · exact hdone

/-- A completed instruction of a running machine does not end Faulted. -/
theorem Effect.not_faulted {i : Instr} {s t : State} (h : Effect i s t) (hgood : badOperand i = none)
    (hrun : s.status = .running) (r : FaultRecord) : t.status ≠ .faulted r := by
  obtain ⟨-, rfl⟩ | ⟨-, hstatus⟩ := h.status_of_good hgood
  · exact nofun
  · simp [hstatus, hrun]

/-- Advancing the PC never overshoots. -/
theorem toNat_add_ofNat_le (pc : PcWord) (n : Nat) : (pc + BitVec.ofNat 9 n).toNat ≤ pc.toNat + n := by
  rw [BitVec.toNat_add, BitVec.toNat_ofNat]
  omega

/-- A completed instruction that ends within memory leaves a PC of at most 256. -/
theorem Effect.pc_le {i : Instr} {s t : State} (h : Effect i s t) (hgood : badOperand i = none)
    (hroom : s.pc.toNat + size i.opcode.byte ≤ 256) : t.pc.toNat ≤ 256 := by
  obtain ⟨-, hpc⟩ | ⟨-, ⟨v, hpc⟩ | ⟨⟨a, hi⟩, hpc⟩⟩ := h.pc_cases hgood
  · rw [hpc, length_encode]
    exact (toNat_add_ofNat_le s.pc _).trans hroom
  · rw [hpc, BitVec.toNat_setWidth_of_le (by decide)]
    exact Nat.le_of_lt v.isLt
  · have hsize : size i.opcode.byte = 2 := by
      obtain rfl | rfl := hi <;> exact size_byte _
    rw [hsize] at hroom
    exact hpc ▸ (toNat_add_ofNat_le s.pc 2).trans hroom

/-! ### Statements about every step -/

/-- Settles O11: the ends of a running step, and the effect of every instruction. -/
theorem everyStepAnswersANextState : Obligations.EveryStepAnswersANextState := by
  have hexec (i : Instr) (s : State) : ∃ t, exec i s = .next t :=
    (Effect.exists_next i s).imp fun _ => Effect.exec_eq
  refine ⟨fun s => ?_, hexec⟩
  by_cases hrun : s.status = .running
  · obtain ⟨-, hnext⟩ | ⟨_, -, -, hnext⟩ | ⟨_, -, -, hnext⟩ | ⟨i, -, -, hnext⟩ := step_running_cases hrun
    · exact ⟨_, hnext⟩
    · exact ⟨_, hnext⟩
    · exact ⟨_, hnext⟩
    · exact hnext ▸ hexec i _
  · exact ⟨s, step_stopped hrun⟩

/-- Settles O12: a completed instruction is not Faulted, and the faults have R124's state. -/
theorem faultIsPrecise : Obligations.FaultIsPrecise := by
  intro s t r hrun hstep hfault
  obtain ⟨k, n, rfl, -⟩ | ⟨i, -, -, hgood, heffect⟩ := step_fault_or_completed hrun hstep
  · obtain rfl : FaultRecord.mk k s.pc n = r := by simpa using hfault
    exact ⟨rfl, rfl⟩
  · exact absurd hfault (heffect.not_faulted hgood hrun r)

/-- Settles O13: the faults have R124's state, and no instruction writes IR. -/
theorem irHoldsTheLastFetchedByte : Obligations.IrHoldsTheLastFetchedByte := by
  refine ⟨fun s t hrun hstep => ?_, fun i s t hexec => (exec_eq_next_iff.1 hexec).ir_eq⟩
  obtain ⟨k, n, rfl, -⟩ | ⟨i, hfetch, -, -, heffect⟩ := step_fault_or_completed hrun hstep
  · rfl
  · rw [heffect.ir_eq, hfetch]
    rfl

/-- A running step on HLT's byte, at any address (R80). -/
theorem step_hlt {s : State} (hrun : s.status = .running) (hfetch : s.memRead s.pc.toNat = some Opcode.hlt.byte) :
    step s = .next ((s.setIr Opcode.hlt.byte).halt.setPc (s.pc + 1)) :=
  (step_fetched (i := .hlt) hrun hfetch nofun).trans Effect.hlt.exec_eq

/-- Settles O14: HLT's step halts; no fault is Halted, and no other completed instruction changes the status. -/
theorem onlyHltHalts : Obligations.OnlyHltHalts := by
  intro s t hrun hstep
  refine ⟨fun hhalted => ?_, fun hfetch => ?_⟩
  · obtain ⟨k, n, rfl, -⟩ | ⟨i, hfetch, -, hgood, heffect⟩ := step_fault_or_completed hrun hstep
    · cases hhalted
    · obtain ⟨rfl, -⟩ | ⟨-, hstatus⟩ := heffect.status_of_good hgood
      · exact hfetch
      · simp [hstatus, hrun] at hhalted
  · obtain rfl := next_unique hstep (step_hlt hrun hfetch)
    rfl

/-- Settles O40: `Effect.pc_le`. -/
theorem completedStepLeavesPcAtMost256 : Obligations.CompletedStepLeavesPcAtMost256 := by
  intro s t hrun hstep hnofault
  obtain ⟨k, n, rfl, -⟩ | ⟨i, -, hroom, hgood, heffect⟩ := step_fault_or_completed hrun hstep
  · exact absurd rfl (hnofault _)
  · exact heffect.pc_le hgood hroom

/-! ### The invariant -/

/-- The comparison sets one flag (R93). -/
theorem compareFlags_exclusive (a b : Byte) : (compareFlags a b).exclusive := by
  unfold compareFlags
  split
  · decide
  · split <;> decide

/-- Only CMP writes FL, and it sets one flag. -/
theorem Effect.flags_exclusive {i : Instr} {s t : State} (h : Effect i s t) (hflags : s.flags.exclusive) :
    t.flags.exclusive := by
  cases h with
  | cmp => exact compareFlags_exclusive _ _
  | _ => exact hflags

/-- What a completed instruction leaves agrees with its status (R80). -/
theorem Effect.statusOk {i : Instr} {s t : State} (h : Effect i (s.setIr i.opcode.byte) t)
    (hgood : badOperand i = none) (hrun : s.status = .running)
    (hroom : s.pc.toNat + size i.opcode.byte ≤ 256) : t.statusOk := by
  obtain ⟨rfl, ht⟩ | ⟨-, hstatus⟩ := h.status_of_good hgood
  · have hpos : 1 ≤ t.pc.toNat := by
      have hlt : s.pc.toNat + 1 ≤ 256 := hroom
      rw [ht, State.setPc_pc, State.setIr_pc, BitVec.toNat_add_of_lt (by simp; omega)]
      exact Nat.le_add_left 1 _
    exact (State.statusOk_halted t (by rw [ht]; rfl)).2 ⟨by rw [ht]; rfl, hpos, h.pc_le hgood hroom⟩
  · exact State.statusOk_running t (hstatus.trans hrun)

/-- Settles O39: a stopped machine stays as it is, a fault writes a legal record, and a completed instruction keeps
each clause. -/
theorem everyStepKeepsTheInvariant : Obligations.EveryStepKeepsTheInvariant := by
  intro s t hinv hstep
  by_cases hrun : s.status = .running
  · obtain ⟨hmem, hpc, hflags, -⟩ := hinv
    obtain ⟨k, n, rfl, hlegal⟩ | ⟨i, -, hroom, hgood, heffect⟩ := step_fault_or_completed hrun hstep
    · exact ⟨hmem, hpc, hflags, (State.statusOk_faulted _ _ rfl).2 ⟨rfl, hlegal hpc⟩⟩
    · exact ⟨heffect.mem_wf hmem, (heffect.pc_le hgood hroom).trans (by decide),
        heffect.flags_exclusive hflags, heffect.statusOk hgood hrun hroom⟩
  · obtain rfl := next_unique hstep (step_stopped hrun)
    exact hinv

/-- Settles O38: the reset state's fields. -/
theorem resetMeetsTheInvariant : Obligations.ResetMeetsTheInvariant := by
  unfold Obligations.ResetMeetsTheInvariant
  decide

end Sys2Proof.Machine
end

section
/-!
PROOFS of the instruction statements (R80 to R115): each is the instruction's effect, its index fault and its
operand-read fault.
-/

namespace Sys2Proof.Machine

/-! ### Shared clauses -/

/-- Check 3 from an address that leaves an operand byte past the end of memory. -/
theorem operandReadFaultsFrom_of_room (op : Opcode) {first : Nat} (h : 256 < first + size op.byte) :
    OperandReadFaultsFrom op.byte first :=
  fun _ hrun hfetch hfirst => step_operand_past_end hrun hfetch (by omega)

/-- The index fault of `op_a`, whatever follows it. -/
theorem exec_bad_first {i : Instr} {a : Byte} {rest : List Byte} (hops : i.registerOperands = a :: rest) (s : State)
    (ha : 8 ≤ a.toNat) : exec i s = .next (s.afterFault s.ir .registerIndexFault (a.setWidth 9)) :=
  exec_badOperand s (badOperand_first hops ha)

/-- The index fault of `op_b`, after a good `op_a`. -/
theorem exec_bad_second {i : Instr} {a b : Byte} (hops : i.registerOperands = [a, b]) (s : State) (ha : a.toNat < 8)
    (hb : 8 ≤ b.toNat) : exec i s = .next (s.afterFault s.ir .registerIndexFault (b.setWidth 9)) :=
  exec_badOperand s (badOperand_second hops ha hb)

theorem ofNat_mod_256 (n : Nat) : BitVec.ofNat 8 (n % 256) = BitVec.ofNat 8 n :=
  BitVec.eq_of_toNat_eq (by simp)

/-- The comparison's flags as propositions (R93). -/
theorem compareFlags_eq (a b : Byte) :
    compareFlags a b = ⟨decide (a.toNat < b.toNat), decide (b.toNat < a.toNat), decide (a = b)⟩ := by
  have heq : a = b ↔ a.toNat = b.toNat := BitVec.toNat_inj.symm
  obtain h | h | h := Nat.lt_trichotomy a.toNat b.toNat
  · simp [compareFlags, h, heq, Nat.ne_of_lt h, Nat.not_lt_of_gt h]
  · simp [compareFlags, h, heq]
  · simp [compareFlags, h, heq, Nat.ne_of_gt h, Nat.not_lt_of_gt h]

/-- A register read after the push's decrement: the new SP for R7 (R100, R111). -/
theorem State.reg_after_decrement (s : State) (a : RegIdx) :
    (s.setSp (s.sp - 1)).reg a = if a = 7 then s.reg 7 - 1 else s.reg a := s.reg_setSp a _

/-! ### HLT, LDI, PRN -/

/-- Settles O19: `Effect.hlt` and `step_hlt`. -/
theorem hltHaltsAndAdvances : Obligations.HltHaltsAndAdvances :=
  ⟨rfl, size_byte .hlt, setsPC_byte .hlt, fun _ => Effect.hlt.exec_eq, fun _ => step_hlt⟩

/-- Settles O20: `Effect.ldi`. -/
theorem ldiWritesTheImmediate : Obligations.LdiWritesTheImmediate :=
  ⟨fun _ _ => rfl, size_byte .ldi, setsPC_byte .ldi, fun _ _ _ _ h => (Effect.ldi h).exec_eq,
    fun s _ _ => exec_bad_first rfl s, operandReadFaultsFrom_of_room .ldi (by decide)⟩

/-- Settles O21: `Effect.prn`. -/
theorem prnEmitsTheRegister : Obligations.PrnEmitsTheRegister :=
  ⟨fun _ => rfl, size_byte .prn, setsPC_byte .prn, fun _ _ _ h => (Effect.prn h).exec_eq,
    fun s _ => exec_bad_first rfl s, operandReadFaultsFrom_of_room .prn (by decide)⟩

/-! ### The ALU -/

/-- Settles O22: `Effect.mul`. -/
theorem mulWritesTheProductModulo256 : Obligations.MulWritesTheProductModulo256 := by
  refine ⟨fun _ _ => rfl, size_byte .mul, setsPC_byte .mul, fun s opA opB a b ha hb => ?_,
    fun s _ _ => exec_bad_first rfl s, fun s _ _ => exec_bad_second rfl s,
    operandReadFaultsFrom_of_room .mul (by decide)⟩
  rw [ofNat_mod_256]
  exact (Effect.mul ha hb).exec_eq

/-- Settles O23: `Effect.add`. -/
theorem addWritesTheSumModulo256 : Obligations.AddWritesTheSumModulo256 := by
  refine ⟨fun _ _ => rfl, size_byte .add, setsPC_byte .add, fun s opA opB a b ha hb => ?_,
    fun s _ _ => exec_bad_first rfl s, fun s _ _ => exec_bad_second rfl s,
    operandReadFaultsFrom_of_room .add (by decide)⟩
  rw [ofNat_mod_256]
  exact (Effect.add ha hb).exec_eq

/-- Settles O24: `Effect.cmp` and the flags of the comparison. -/
theorem cmpSetsExactlyOneFlag : Obligations.CmpSetsExactlyOneFlag := by
  refine ⟨fun _ _ => rfl, size_byte .cmp, setsPC_byte .cmp, fun s opA opB a b ha hb => ?_,
    fun s _ _ => exec_bad_first rfl s, fun s _ _ => exec_bad_second rfl s,
    operandReadFaultsFrom_of_room .cmp (by decide)⟩
  rw [← compareFlags_eq]
  exact (Effect.cmp ha hb).exec_eq

/-! ### The stack -/

/-- Settles O25: `Effect.push`, and the pushed byte is read back. -/
theorem pushDecrementsThenStores : Obligations.PushDecrementsThenStores := by
  refine ⟨fun _ => rfl, size_byte .push, setsPC_byte .push, fun s opA a hwf ha => ?_,
    fun s _ => exec_bad_first rfl s, operandReadFaultsFrom_of_room .push (by decide)⟩
  refine ⟨_, (Effect.push ha).exec_eq, rfl, fun x => ?_⟩
  rw [← s.reg_after_decrement a]
  exact s.memRead_pushByte _ hwf x

/-- SP after POP's load: the loaded byte for R7 (R101). -/
theorem State.sp_setReg (s : State) (a : RegIdx) (v : Byte) : (s.setReg a v).sp = if a = 7 then v else s.reg 7 :=
  s.reg_setReg a 7 v

/-- Settles O26: `Effect.pop`. -/
theorem popLoadsThenIncrements : Obligations.PopLoadsThenIncrements := by
  refine ⟨fun _ => rfl, size_byte .pop, setsPC_byte .pop, fun s opA a v ha hload => ?_,
    fun s _ => exec_bad_first rfl s, operandReadFaultsFrom_of_room .pop (by decide)⟩
  obtain rfl : s.mem.peek s.sp.toNat = v := by simpa [State.sp] using hload
  have hsp := s.sp_setReg a (s.mem.peek s.sp.toNat)
  rw [(Effect.pop ha).exec_eq, hsp, apply_ite (· + 1)]
  rfl

/-! ### Control -/

/-- Settles O27: `Effect.call`, and the return address is read back. -/
theorem callStoresTheReturnAddressAndJumps : Obligations.CallStoresTheReturnAddressAndJumps := by
  refine ⟨fun _ => rfl, size_byte .call, setsPC_byte .call, fun s opA a hwf ha => ?_,
    fun s _ => exec_bad_first rfl s, operandReadFaultsFrom_of_room .call (by decide)⟩
  refine ⟨_, (Effect.call ha).exec_eq, ?_, fun x => ?_⟩
  · rw [s.reg_after_decrement a]
    rfl
  · rw [ofNat_mod_256]
    exact s.memRead_pushByte _ hwf x

/-- Settles O28: `Effect.ret`, and the step that fetches RET's byte. -/
theorem retJumpsToTheStackedByte : Obligations.RetJumpsToTheStackedByte := by
  have hexec (s : State) (v : Byte) (hload : s.memRead (s.reg 7).toNat = some v) :
      exec .ret s = .next { s with regs := s.regs.set 7 (s.reg 7 + 1), pc := v.setWidth 9 } := by
    obtain rfl : s.mem.peek s.sp.toNat = v := by simpa [State.sp] using hload
    exact Effect.ret.exec_eq
  exact ⟨rfl, size_byte .ret, setsPC_byte .ret, hexec, fun s v hrun hfetch hload =>
    (step_fetched (i := .ret) hrun hfetch nofun).trans (hexec (s.setIr _) v hload)⟩

/-- Settles O29: `Effect.jmp`. -/
theorem jmpGoesToTheRegister : Obligations.JmpGoesToTheRegister :=
  ⟨fun _ => rfl, size_byte .jmp, setsPC_byte .jmp, fun _ _ _ h => (Effect.jmp h).exec_eq,
    fun s _ => exec_bad_first rfl s, operandReadFaultsFrom_of_room .jmp (by decide)⟩

/-- Settles O30: `Effect.jeq`. -/
theorem jeqIsTakenWhenEqual : Obligations.JeqIsTakenWhenEqual :=
  ⟨fun _ => rfl, size_byte .jeq, setsPC_byte .jeq, fun _ _ _ h => (Effect.jeq h).exec_eq,
    fun s _ => exec_bad_first rfl s, operandReadFaultsFrom_of_room .jeq (by decide)⟩

/-- Settles O31: `Effect.jne`, on E being 0. -/
theorem jneIsTakenWhenNotEqual : Obligations.JneIsTakenWhenNotEqual := by
  refine ⟨fun _ => rfl, size_byte .jne, setsPC_byte .jne, fun s opA a ha => ?_, fun s _ => exec_bad_first rfl s,
    operandReadFaultsFrom_of_room .jne (by decide)⟩
  rw [(Effect.jne ha).exec_eq]
  cases s.flags.e <;> rfl

end Sys2Proof.Machine
end

section
/-!
PROOFS about the dispatch table (R71), the order of the checks (R126) and the output (R82): statements over every step.
-/

namespace Sys2Proof.Machine

/-! ### The dispatch table -/

/-- Settles O4: the table, exact equality, the step on each entry's byte, and check 2 of the cycle. -/
theorem dispatchIsByExactByteEquality : Obligations.DispatchIsByExactByteEquality := by
  refine ⟨rfl, by decide, fun op => by cases op <;> decide,
    fun ir op => ⟨byte_of_opcodeOf ir op, fun h => h ▸ opcodeOf_byte op⟩,
    fun s a b ir i hentry hrun hfetch hops => ?_, fun s ir hrun hfetch hir => ?_⟩
  · obtain rfl : ir = i.opcode.byte := by
      simp only [List.mem_cons, Prod.mk.injEq, List.not_mem_nil, or_false] at hentry
      cases i <;> simp_all [Instr.opcode, Opcode.byte]
    exact step_fetched hrun hfetch hops
  · exact ⟨_, _, step_illegal_byte hrun hfetch (opcodeOf_eq_none hir), rfl⟩

/-! ### The order of the checks -/

/-- An operation with operands has `op_a` as its first register operand (R64). -/
theorem registerOperands_assemble {op : Opcode} (hsize : 2 ≤ size op.byte) (a b : Byte) :
    ∃ rest, (op.assemble a b).registerOperands = a :: rest := by
  rw [size_byte] at hsize
  cases op with
  | hlt | ret => simp at hsize
  | _ => exact ⟨_, rfl⟩

/-- The ALU's operations have two register operands (R64). -/
theorem registerOperands_assemble_alu {op : Opcode} (hop : op ∈ [Opcode.mul, .add, .cmp]) (a b : Byte) :
    (op.assemble a b).registerOperands = [a, b] := by
  simp only [List.mem_cons, List.not_mem_nil, or_false] at hop
  obtain rfl | rfl | rfl := hop <;> rfl

/-- An assembled instruction whose register operands pass R126's checks has no bad operand. -/
theorem badOperand_assemble {op : Opcode} {a b : Byte} (ha : 2 ≤ size op.byte → a.toNat < 8)
    (hb : op ∈ [Opcode.mul, .add, .cmp] → b.toNat < 8) : badOperand (op.assemble a b) = none := by
  rw [badOperand_eq_none_iff]
  rw [size_byte] at ha
  cases op <;> simp_all [Opcode.assemble, Instr.wellFormed, Instr.registerOperands]

/-- Settles O8: one end of the cycle for each check; the index checks are those of the assembled instruction. -/
theorem stepRaisesTheFirstFaultInOrder : Obligations.StepRaisesTheFirstFaultInOrder := by
  refine fun s hrun => ⟨step_fetch_past_end hrun, fun ir => step_illegal_byte hrun, fun op hfetch =>
    ⟨fun hsize hpc => step_operand_past_end hrun hfetch (by omega),
      fun hsize hpc => step_operand_past_end hrun hfetch (by omega), fun _ a b ha hb => ?_⟩⟩
  have hstep : step s = exec (op.assemble a b) (s.setIr op.byte) := by
    rw [step_encoded hrun (State.encoded_assemble hfetch ha hb), assemble_opcode]
  refine ⟨fun hsize hbad => ?_, fun hop hgood hbad => ?_, fun hgoodA hgoodB => ?_⟩
  · obtain ⟨rest, hops⟩ := registerOperands_assemble hsize a b
    exact hstep.trans (exec_bad_first hops _ hbad)
  · exact hstep.trans (exec_bad_second (registerOperands_assemble_alu hop a b) _ hgood hbad)
  · obtain ⟨t, ht⟩ := Effect.exists_next (op.assemble a b) (s.setIr op.byte)
    exact ⟨t, hstep.trans ht.exec_eq, ht.not_faulted (badOperand_assemble hgoodA hgoodB) hrun⟩

/-! ### The output -/

/-- No event where the output is as before. -/
theorem outputEvent_eq_none {s t : State} (h : t.output = s.output) : outputEvent s t = none := by
  simp [outputEvent, h]

/-- The one value appended is the event. -/
theorem outputEvent_eq_some {s t : State} {v : Byte} (h : t.output = s.output ++ [v]) :
    outputEvent s t = some v := by
  simp [outputEvent, h]

@[simp] theorem State.latchIr_output (s : State) : s.latchIr.output = s.output := by
  unfold State.latchIr
  split <;> rfl

@[simp] theorem State.raiseDecodeError_output (s : State) (e : DecodeError) :
    (s.raiseDecodeError e).output = s.output := by
  cases e <;> rfl

/-- Settles O35: `Effect.output_cases`, and PRN's operand byte stands at PC + 1. -/
theorem onlyPrnEmits : Obligations.OnlyPrnEmits := by
  refine ⟨fun i s t hprn hexec => ?_, fun s t hstep => ?_⟩
  · obtain houtput | ⟨op, -, hi, -⟩ := (exec_eq_next_iff.1 hexec).output_cases
    · exact houtput
    · exact absurd hi (hprn op)
  · have unchanged (h : t.output = s.output) : t.output = s.output ∧ outputEvent s t = none :=
      ⟨h, outputEvent_eq_none h⟩
    obtain ⟨-, rfl⟩ | ⟨-, i, hdecode, hexec⟩ | ⟨-, e, -, rfl⟩ := step_cases s t hstep
    · exact .inl (unchanged rfl)
    · have hbytes := encoded_of_decodeAt hdecode
      rw [State.latchIr_of_fetch (hbytes 0 _ rfl)] at hexec
      obtain houtput | ⟨op, a, rfl, ha, houtput⟩ := (exec_eq_next_iff.1 hexec).output_cases
      · exact .inl (unchanged houtput)
      · exact .inr ⟨hbytes 0 _ rfl, op, a, hbytes 1 op rfl, ha, houtput, outputEvent_eq_some houtput⟩
    · exact .inl (unchanged (by simp))

end Sys2Proof.Machine
end

section
/-!
PROOFS about memory as data (R31, R42), reset and the boundary (R8 to R10, R140 to R143).
-/

namespace Sys2Proof.Machine

/-! ### The memory array -/

/-- Settles O16: a store below 256 is one poke, and there is none from 256 on. -/
theorem memWriteChangesOneCellOrFaults : Obligations.MemWriteChangesOneCellOrFaults := by
  refine fun s addr v hwf => ⟨fun hlt => ⟨_, if_pos hlt, rfl, Memory.wf_poke addr _ s.mem hwf hlt, fun x => ?_⟩,
    fun hge => ?_⟩
  · rw [ofNat_mod_256]
    exact State.memRead_of_poke hwf hlt rfl x
  · have hnone : s.memWrite addr v = none := if_neg (Nat.not_lt.2 hge)
    exact ⟨hnone, fun _ k => by simp only [withStore, hnone, State.raise_eq_afterFault]⟩

/-- A memory that reads as a canonical one lists an address no later than its first. -/
theorem Memory.exists_le_of_peek_eq {c : Host.Cell} {m n : Memory} (hm : Memory.wf (c :: m))
    (hpeek : ∀ a, a < 256 → Memory.peek (c :: m) a = n.peek a) : ∃ d ∈ n, d.1 ≤ c.1 := by
  obtain ⟨-, -, hsize, hfill⟩ := Memory.wf_tail c m hm
  by_contra! habove
  have hread : Memory.peek (c :: m) c.1 = c.2 := if_pos rfl
  exact hfill (hread.symm.trans ((hpeek c.1 hsize).trans (Memory.peek_of_below n c.1 habove)))

/-- Canonical memories that read alike begin at one address. -/
theorem Memory.head_le_of_peek_eq {c d : Host.Cell} {m n : Memory} (hm : Memory.wf (c :: m))
    (hn : Memory.wf (d :: n)) (hpeek : ∀ a, a < 256 → Memory.peek (c :: m) a = Memory.peek (d :: n) a) :
    d.1 ≤ c.1 := by
  obtain ⟨-, habove, -, -⟩ := Memory.wf_tail d n hn
  obtain ⟨e, he, hle⟩ := Memory.exists_le_of_peek_eq hm hpeek
  obtain rfl | he := List.mem_cons.1 he
  · exact hle
  · exact (habove e he).le.trans hle

/-- What follows a common first entry reads alike. -/
theorem Memory.peek_tail_eq {c : Host.Cell} {m n : Memory} (hm : Memory.wf (c :: m)) (hn : Memory.wf (c :: n))
    (hpeek : ∀ a, a < 256 → Memory.peek (c :: m) a = Memory.peek (c :: n) a) (a : Nat) (ha : a < 256) :
    m.peek a = n.peek a := by
  obtain ⟨-, hm', -, -⟩ := Memory.wf_tail c m hm
  obtain ⟨-, hn', -, -⟩ := Memory.wf_tail c n hn
  by_cases hle : a ≤ c.1
  · rw [Memory.peek_of_below m a fun e he => hle.trans_lt (hm' e he),
      Memory.peek_of_below n a fun e he => hle.trans_lt (hn' e he)]
  · have hne : c.1 ≠ a := by omega
    simpa only [Memory.peek, if_neg hne] using hpeek a ha

/-- Settles O17: the first entries agree, and the rest of both memories reads alike. -/
theorem memoriesThatReadAlikeAreEqual : Obligations.MemoriesThatReadAlikeAreEqual := by
  intro m
  induction m with
  | nil =>
    intro n _ hn hpeek
    cases n with
    | nil => rfl
    | cons d n => simpa using Memory.exists_le_of_peek_eq hn fun a ha => (hpeek a ha).symm
  | cons c m ih =>
    intro n hm hn hpeek
    obtain ⟨hm', -, hsize, -⟩ := Memory.wf_tail c m hm
    cases n with
    | nil => simpa using Memory.exists_le_of_peek_eq hm hpeek
    | cons d n =>
      obtain ⟨hn', -⟩ := Memory.wf_tail d n hn
      have haddr : c.1 = d.1 := Nat.le_antisymm
        (Memory.head_le_of_peek_eq hn hm fun a ha => (hpeek a ha).symm) (Memory.head_le_of_peek_eq hm hn hpeek)
      have hvalue : c.2 = d.2 := by simpa [Memory.peek, haddr] using hpeek c.1 hsize
      obtain rfl : c = d := Prod.ext haddr hvalue
      rw [ih n hm' hn' (Memory.peek_tail_eq hm hn hpeek)]

/-! ### Reset and launch -/

/-- Settles O1: the reset state's fields, and its empty memory. -/
theorem resetStateHoldsTheStatedValues : Obligations.ResetStateHoldsTheStatedValues :=
  ⟨by decide, by decide, rfl, rfl, by decide, rfl, fun _ => State.memRead_of_lt _, rfl⟩

/-- An image is read back over what the memory held (R142). -/
theorem Memory.peek_pokeList (vs : List Byte) (addr : Nat) (m : Memory) (hwf : m.wf)
    (hfit : addr + vs.length ≤ 256) (x : Nat) :
    (Memory.pokeList addr vs m).peek x = if addr ≤ x then vs.getD (x - addr) (m.peek x) else m.peek x := by
  induction vs generalizing addr m with
  | nil => simp [Memory.pokeList]
  | cons v vs ih =>
    simp only [List.length_cons] at hfit
    rw [Memory.pokeList, ih (addr + 1) _ (Memory.wf_poke addr v m hwf (by simp; omega)) (by omega),
      Memory.peek_poke addr x v m hwf]
    obtain hx | rfl | hx := Nat.lt_trichotomy x addr
    · rw [if_neg (by omega), if_neg (by omega), if_neg (by omega)]
    · simp
    · obtain ⟨k, rfl⟩ := Nat.exists_eq_add_of_lt hx
      rw [if_pos (by omega), if_neg (by omega), if_pos (by omega), show addr + k + 1 - (addr + 1) = k by omega,
        show addr + k + 1 - addr = k + 1 by omega, List.getD_cons_succ]

/-- Settles O45: `Memory.peek_pokeList` over the empty memory of reset. -/
theorem launchPlacesTheImageOverTheFill : Obligations.LaunchPlacesTheImageOverTheFill := by
  refine fun image => ⟨fun hfit => ⟨_, if_pos hfit, rfl, ?_, fun a ha => ?_⟩, fun hlong => if_neg (by simpa)⟩
  · exact Memory.wf_pokeList image 0 [] Memory.wf_nil (by simpa)
  · rw [State.memRead_of_lt _ ha]
    have hread := Memory.peek_pokeList image 0 [] Memory.wf_nil (by omega) a
    rw [if_pos a.zero_le] at hread
    exact congrArg some hread

/-! ### Ticks -/

/-- While `rst` is asserted a tick is the loader's write on the state held in reset. -/
theorem Block.tick_reset {inp : Inputs} (h : inp.rst = true) (b : Block) :
    b.tick inp = .next ⟨true, inp.load b.heldInReset⟩ := if_pos h

/-- The loader's ticks store the image (R142). -/
theorem Block.ticks_loaderInputs (vs : List Byte) (addr : Nat) (m : Memory) (hfit : addr + vs.length ≤ 256) :
    Block.ticks (loaderInputs addr vs) ⟨true, { State.reset with mem := m }⟩ =
      .next ⟨true, { State.reset with mem := Memory.pokeList addr vs m }⟩ := by
  induction vs generalizing addr m with
  | nil => rfl
  | cons v vs ih =>
    simp only [List.length_cons] at hfit
    have haddr : (BitVec.ofNat 8 addr).toNat = addr := by simp; omega
    have htick : Block.tick ⟨true, true, BitVec.ofNat 8 addr, v⟩ ⟨true, { State.reset with mem := m }⟩ =
        .next ⟨true, { State.reset with mem := m.poke addr v }⟩ := by
      simp [Block.tick_reset, Inputs.load, Block.heldInReset, haddr]
    simp only [loaderInputs, Block.ticks, htick]
    exact ih (addr + 1) _ (by omega)

/-- Settles O46: the tick that starts the reset, then the loader's. -/
theorem resetAndLoadReachTheLaunchState : Obligations.ResetAndLoadReachTheLaunchState :=
  fun _ image hfit => ⟨_, if_pos hfit, Block.ticks_loaderInputs image 0 [] (by omega)⟩

/-- Only memory differs from the reset state while `rst` is held: it is kept when the reset goes on, and the fill
when it starts (R140, R141). -/
theorem Block.heldInReset_eq (b : Block) :
    b.heldInReset = { State.reset with mem := if b.rst = true then b.core.mem else [] } := by
  unfold Block.heldInReset
  split <;> rfl

theorem Block.wf_heldInReset {b : Block} (h : b.rst = false ∨ b.core.mem.wf) : b.heldInReset.mem.wf := by
  rw [Block.heldInReset_eq]
  obtain hstart | hwf := h
  · simpa [hstart] using Memory.wf_nil
  · show Memory.wf (if b.rst = true then b.core.mem else [])
    split
    · exact hwf
    · exact Memory.wf_nil

theorem Block.memRead_heldInReset (b : Block) (x : Nat) :
    b.heldInReset.memRead x =
      if b.rst = true then b.core.memRead x else if x < 256 then some 0 else none := by
  unfold Block.heldInReset
  split <;> rfl

/-- The loader writes memory only (R142). -/
theorem Inputs.load_eq (inp : Inputs) (s : State) : inp.load s = { s with mem := (inp.load s).mem } := by
  unfold Inputs.load
  split <;> rfl

/-- The loader's write keeps the canonical form. -/
theorem Inputs.wf_load (inp : Inputs) {s : State} (hwf : s.mem.wf) : (inp.load s).mem.wf := by
  unfold Inputs.load
  split
  · exact Memory.wf_poke _ _ s.mem hwf inp.loadAddr.isLt
  · exact hwf

/-- The loader's byte is read back, and every other cell is unchanged. -/
theorem Inputs.memRead_load (inp : Inputs) {s : State} (hwf : s.mem.wf) (x : Nat) :
    (inp.load s).memRead x =
      if inp.loadWe = true ∧ x = inp.loadAddr.toNat then some inp.loadData else s.memRead x := by
  by_cases hwe : inp.loadWe = true
  · simp only [Inputs.load, hwe, if_true, true_and]
    exact State.memRead_of_poke hwf inp.loadAddr.isLt rfl x
  · simp [Inputs.load, hwe]

/-- Settles O47: a released tick is a step; a tick in reset is the loader's write on the state held in reset. -/
theorem loaderWritesOnlyInReset : Obligations.LoaderWritesOnlyInReset := by
  refine ⟨fun b inp hrst => ?_, fun b inp hrst => ⟨_, Block.tick_reset hrst b, ?_, fun hstart => ?_⟩⟩
  · obtain ⟨t, hstep⟩ := everyStepAnswersANextState.1 b.core
    exact ⟨t, hstep, by simp [Block.tick, hrst, hstep]⟩
  · rw [Inputs.load_eq, Block.heldInReset_eq]
  · have hwf := Block.wf_heldInReset hstart
    exact ⟨inp.wf_load hwf, fun x => by rw [inp.memRead_load hwf, Block.memRead_heldInReset]⟩

/-! ### The ports -/

/-- Without a record the fault ports read as 0 (R30). -/
theorem State.faultPorts_of_none {s : State} (h : s.faultRecord = none) :
    s.faultedPort = false ∧ s.faultKindPort = 0 ∧ s.faultPcPort = 0 ∧ s.faultInfoPort = 0 := by
  simp [State.faultedPort, State.faultKindPort, State.faultPcPort, State.faultInfoPort, h]

/-- Settles O44: the ports by status, and the codes of the three faults. -/
theorem portsReportTheStatus : Obligations.PortsReportTheStatus := by
  refine fun s => ⟨fun h => ?_, fun h => ?_, fun r h => ?_⟩
  · exact ⟨by simp [State.haltedPort, h], State.faultPorts_of_none (by simp [State.faultRecord, h])⟩
  · exact ⟨by simp [State.haltedPort, h], State.faultPorts_of_none (by simp [State.faultRecord, h])⟩
  · have hrecord : s.faultRecord = some r := (s.faultRecord_eq_some r).2 h
    refine ⟨by simp [State.haltedPort, h], by simp [State.faultedPort, hrecord], ?_,
      by simp [State.faultPcPort, hrecord], by simp [State.faultInfoPort, hrecord]⟩
    simp only [State.faultKindPort, hrecord]
    cases r.kind <;> rfl

end Sys2Proof.Machine
end

section
/-!
PROOFS about instructions one after another (R53, R102, R112, R115) and about runs (R148).
-/

namespace Sys2Proof.Machine

/-! ### The pushed byte -/

/-- The pushed byte, fetched where the PC then points (R53). -/
theorem ir_of_pushed {s t u : State} {v : Byte} (hstep : step t = .next u) (haddr : (s.sp - 1).toNat = t.pc.toNat)
    (hmem : t.mem = (s.pushByte v).mem) (hrun : t.status = .running) (hwf : s.mem.wf) : u.ir = v := by
  rw [irHoldsTheLastFetchedByte.1 t u hrun hstep, ← haddr, State.memRead_congr t _ hmem,
    s.memRead_pushByte v hwf, if_pos rfl]
  rfl

/-- Settles O18: both instructions leave a pushed byte, and the machine running. -/
theorem storedCodeIsFetchedNext : Obligations.StoredCodeIsFetchedNext := by
  refine ⟨fun s t u opA a hwf hrun ha hexec haddr hstep => ?_, fun s t u opA a hwf hrun ha hexec haddr hstep => ?_⟩
  · obtain rfl := next_unique (Effect.push ha).exec_eq hexec
    rw [← s.reg_after_decrement a]
    exact ir_of_pushed hstep haddr rfl hrun hwf
  · obtain rfl := next_unique (Effect.call ha).exec_eq hexec
    rw [ofNat_mod_256]
    exact ir_of_pushed hstep haddr rfl hrun hwf

@[simp] theorem State.sp_setPc (s : State) (p : PcWord) : (s.setPc p).sp = s.sp := rfl

/-- The byte at SP after a push is the one pushed. -/
theorem peek_sp_of_pushed {s t : State} {v : Byte} (hwf : s.mem.wf) (hsp : t.sp = s.sp - 1)
    (hread : t.memRead t.sp.toNat = (s.pushByte v).memRead t.sp.toNat) : t.mem.peek t.sp.toNat = v := by
  rw [State.memRead_byte, s.memRead_pushByte v hwf, if_pos (by rw [hsp])] at hread
  exact Option.some.inj hread

theorem State.sp_eq_reg (s : State) : s.sp = s.reg 7 := rfl

/-- Settles O41: POP loads the pushed byte and adds 1 to an SP of one less, or to the pushed one for R7. -/
theorem pushThenPopRestoresRegisterAndSp : Obligations.PushThenPopRestoresRegisterAndSp := by
  intro s op a hwf ha
  refine ⟨_, _, (Effect.push ha).exec_eq, (Effect.pop ha).exec_eq, fun r => ?_, ?_⟩
  · simp only [State.setPc_mem, State.sp_setPc, peek_sp_of_pushed hwf (s.reg_pushByte _ 7) rfl]
    simp only [State.reg_setPc, State.reg_setSp, State.reg_setReg, State.reg_pushByte, State.sp_eq_reg]
    by_cases hr : r = 7
    · by_cases haSp : a = 7 <;> simp [hr, haSp]
    · by_cases har : a = r <;> simp [hr, har]
  · exact (State.reg_setPc _ _ 7).trans (s.reg_pushByte _ 7)

/-- The return address as a PC: the instruction after a CALL at 0 to 253, and 0 after one at 254 (R112, C5). -/
theorem targetPc_return (pc : PcWord) (hpc : pc.toNat ≤ 254) :
    targetPc (BitVec.ofNat 8 (pc.toNat + 2)) = if pc.toNat = 254 then 0 else pc + 2 := by
  apply BitVec.eq_of_toNat_eq
  split
  · next h => simp [targetPc, h]
  · simp [targetPc]
    omega

/-- Settles O42: RET pops the pushed return address. -/
theorem retReturnsAfterItsCall : Obligations.RetReturnsAfterItsCall := by
  intro s t u v op hwf hop hpc hcall hsp hread hret
  obtain rfl := next_unique (Effect.call (a := ⟨op.toNat, hop⟩) rfl).exec_eq hcall
  obtain rfl := next_unique Effect.ret.exec_eq hret
  have hlow : u.sp = s.sp - 1 := hsp.trans ((State.reg_setPc _ _ 7).trans (s.reg_pushByte _ 7))
  have hbyte : u.mem.peek u.sp.toNat = BitVec.ofNat 8 (s.pc.toNat + 2) := peek_sp_of_pushed hwf hlow hread
  have htarget := targetPc_return s.pc hpc
  rw [← hbyte] at htarget
  refine ⟨fun hlast => htarget.trans (if_neg (by omega)), fun hlast => htarget.trans (if_pos hlast), ?_⟩
  exact (u.sp_setSp (u.sp + 1)).trans (by rw [hlow, BitVec.sub_add_cancel]; rfl)

/-- Settles O43: E after the CMP is the truth of equality, and it decides both branches. -/
theorem exactlyOneOfJeqAndJneIsTaken : Obligations.ExactlyOneOfJeqAndJneIsTaken := by
  intro s c t u opA opB op a b r ha hb hr hcmp hjeq hjne
  obtain rfl := next_unique (Effect.jeq hr).exec_eq hjeq
  obtain rfl := next_unique (Effect.jne hr).exec_eq hjne
  obtain rfl := next_unique (Effect.cmp ha hb).exec_eq hcmp
  refine ⟨fun heq => ?_, fun hne => ?_⟩
  · simp [compareFlags_eq, heq, targetPc]
  · simp [compareFlags_eq, hne, targetPc]

/-! ### Runs -/

/-- A run goes on from any state it reaches. -/
theorem core_run_add {s t : State} {k : Nat} (h : core.run k s = .next t) (n : Nat) :
    core.run (k + n) s = core.run n t := by
  induction k generalizing s with
  | zero =>
    obtain rfl := Host.Outcome.next.inj h
    rw [Nat.zero_add]
  | succ k ih =>
    obtain ⟨u, hstep⟩ := everyStepAnswersANextState.1 s
    rw [core_run_succ s u k hstep] at h
    rw [Nat.add_right_comm, core_run_succ s u _ hstep, ih h]

/-- A finished run stays where it is (R136). -/
theorem core_run_finished {s : State} (h : s.finished) (n : Nat) : core.run n s = .next s := by
  induction n with
  | zero => rfl
  | succ n ih => rw [core_run_succ s s n (step_stopped h), ih]

/-- A finished state is the only finished state a run reaches. -/
theorem Reaches.finished_unique {s t u : State} (ht : Reaches s t) (hu : Reaches s u) (htf : t.finished)
    (huf : u.finished) : t = u := by
  obtain ⟨j, hj⟩ := ht
  obtain ⟨k, hk⟩ := hu
  have hleft : core.run (j + k) s = .next t := (core_run_add hj k).trans (core_run_finished htf k)
  have hright : core.run (k + j) s = .next u := (core_run_add hk j).trans (core_run_finished huf j)
  rw [Nat.add_comm] at hleft
  exact next_unique hleft hright

/-- Settles O48: the two ends are one finished state, with one status. -/
theorem haltedRunNeverFaults : Obligations.HaltedRunNeverFaults := by
  rintro s ⟨t, ht, hhalted⟩ ⟨u, r, hu, hfaulted⟩
  obtain rfl := ht.finished_unique hu (by simp [State.finished, hhalted]) (by simp [State.finished, hfaulted])
  simp [hhalted] at hfaulted

end Sys2Proof.Machine
end
